-- ==== Sys2Proof/Word.lean ====
section
/-! DEFINITION. The word types of CORE: bytes, 32-bit bus words and 128-bit blocks (00_scope.md R10, R11; 20_memory.md R41). -/

namespace Sys2Proof

/-- One byte; bit 7 is the most significant (00_scope.md R11). -/
abbrev Byte := BitVec 8

/-- One bus word, `BUSW` = 32 bits wide (00_scope.md R7). -/
abbrev Word := BitVec 32

/-- One block: 16 bytes held as their big-endian value `val(X)` (00_scope.md R7 `NB`, R10). -/
abbrev Block := BitVec 128

end Sys2Proof
end

