-- ==== Sys2Proof/Config.lean ====
section
/-! DEFINITION. What an implementation of CORE fixes: the absorb limit, and the three open parameters of 93_implementation_defined.md section 3 as constants without a body. -/

namespace Sys2Proof.Config

/-- `HMAX`, the most absorbs one S2V chain admits. CORE-1 fixes it at 126 (00_scope.md R7, R8); the spec lets a model take any value in 1..127 (log entry 7). -/
def hmax : Nat := 126

/-- `BASE` divided by `WIN` = 256: the platform sets BASE, a multiple of 256 (00_scope.md R9; I16). It has no body, so nothing can be proved of its value (log entry 8). -/
opaque baseIndex : Nat

/-- `BASE`, the bus address of offset 0x00 of the window (00_scope.md R9). -/
def base : Nat := 256 * baseIndex

/-- `LAT(op)` less one, for each opcode (70_reset_and_hazards.md R156; I17). It has no body (log entry 8). -/
opaque latencyLessOne : BitVec 4 → Nat

/-- `LAT(op)`, at least 1 and a function of the opcode alone. No step reads it: "a model of CORE keeps no time" (70_reset_and_hazards.md R156). -/
def latency (op : BitVec 4) : Nat := latencyLessOne op + 1

/-- `RESET_SOURCES`: whether the platform's reset with this number reaches CORE's reset input (70_reset_and_hazards.md R151; I18). It has no body (log entry 8). -/
opaque resetReaches : Nat → Bool

end Sys2Proof.Config
end

