-- ==== Sys2Proof/Syntax.lean ====
section
/-! DEFINITION. The commands of CORE: one constructor per row of spec/opcode_table.json (30_encoding.md R62). -/

namespace Sys2Proof

/-- A command. `n` is the `LEN` field as 30_encoding.md R61 reads it, an unsigned value 0..31; which values are legal is in WellFormed. The other operands are always the registers `A`, `B` and `D`, so no constructor names a register. -/
inductive Instr where
  | nop
  | dbl
  | pad (n : BitVec 5)
  | s2vInit
  | s2vAbsorb
  | s2vXorend
  | s2vPadend (n : BitVec 5)
  | ivmask
  | cmp
  | zero
  deriving DecidableEq, Repr

end Sys2Proof
end

