-- ==== Sys2Proof/WellFormed.lean ====
section
/-! DEFINITION. Which commands have a legal command word: the length of PAD and S2V.PADEND is 0..15 (30_encoding.md R61, R65). -/

namespace Sys2Proof

/-- The command has a legal word (30_encoding.md R62, "the legal command words"). -/
def Instr.wf : Instr → Bool
  | .nop => true
  | .dbl => true
  | .pad n => decide (n.toNat < 16)
  | .s2vInit => true
  | .s2vAbsorb => true
  | .s2vXorend => true
  | .s2vPadend n => decide (n.toNat < 16)
  | .ivmask => true
  | .cmp => true
  | .zero => true

end Sys2Proof
end

