-- ==== Sys2Proof/Decode.lean ====
section
/-! DEFINITION. The command decoder, total on 32-bit words and rejecting by name, and the encoder (30_encoding.md R60 to R67). -/

namespace Sys2Proof

/-- `OP`, bits 3:0 (30_encoding.md R60). -/
def opField (w : Word) : BitVec 4 := w.extractLsb' 0 4

/-- `LEN`, bits 8:4 (30_encoding.md R60, R61). -/
def lenField (w : Word) : BitVec 5 := w.extractLsb' 4 5

/-- `RSV`, bits 31:9 (30_encoding.md R60). -/
def rsvField (w : Word) : BitVec 23 := w.extractLsb' 9 23

/-- Why a word is no command. The first three are the cases (a), (b), (c) of 30_encoding.md R64; the last is R65. -/
inductive Reject where
  /-- R64 (a): `RSV` is not 0. -/
  | reservedBits
  /-- R64 (b): `OP` is 0xA..0xF. -/
  | reservedOpcode
  /-- R64 (c): `LEN` is not 0 and the opcode takes no length. -/
  | lengthNotAllowed
  /-- R65: `LEN` is 16..31 on PAD or S2V.PADEND. -/
  | lengthTooLong
  deriving DecidableEq, Repr

/-- A command without a length, whose `LEN` must be 0 (30_encoding.md R64 (c)). -/
def withoutLength (n : BitVec 5) (i : Instr) : Except Reject Instr :=
  if n = 0 then .ok i else .error .lengthNotAllowed

/-- A command with a length, whose `LEN` must be below 16 (30_encoding.md R65). -/
def withLength (n : BitVec 5) (i : Instr) : Except Reject Instr :=
  if n.toNat < 16 then .ok i else .error .lengthTooLong

/-- The opcode map of 30_encoding.md R62, once `RSV` is known to be 0. -/
def decodeFields (op : BitVec 4) (n : BitVec 5) : Except Reject Instr :=
  match op.toNat with
  | 0x0 => withoutLength n .nop
  | 0x1 => withoutLength n .dbl
  | 0x2 => withLength n (.pad n)
  | 0x3 => withoutLength n .s2vInit
  | 0x4 => withoutLength n .s2vAbsorb
  | 0x5 => withoutLength n .s2vXorend
  | 0x6 => withLength n (.s2vPadend n)
  | 0x7 => withoutLength n .ivmask
  | 0x8 => withoutLength n .cmp
  | 0x9 => withoutLength n .zero
  | _ => .error .reservedOpcode

/-- The decoder: the field checks of 30_encoding.md R63 in the order shown there (RSV, OP, LEN). -/
def decode (w : Word) : Except Reject Instr :=
  if rsvField w ≠ 0 then .error .reservedBits else decodeFields (opField w) (lenField w)

/-- `OP(m)` of 30_encoding.md R62. -/
def opcodeOf : Instr → BitVec 4
  | .nop => 0x0
  | .dbl => 0x1
  | .pad _ => 0x2
  | .s2vInit => 0x3
  | .s2vAbsorb => 0x4
  | .s2vXorend => 0x5
  | .s2vPadend _ => 0x6
  | .ivmask => 0x7
  | .cmp => 0x8
  | .zero => 0x9

/-- The `LEN` field of a command: its length, or 0 where it takes none (30_encoding.md R61). -/
def lengthOf : Instr → BitVec 5
  | .nop => 0
  | .dbl => 0
  | .pad n => n
  | .s2vInit => 0
  | .s2vAbsorb => 0
  | .s2vXorend => 0
  | .s2vPadend n => n
  | .ivmask => 0
  | .cmp => 0
  | .zero => 0

/-- `enc(m, n) = OP(m) | n << 4` (30_encoding.md R67). -/
def encode (i : Instr) : Word :=
  (opcodeOf i).setWidth 32 ||| ((lengthOf i).setWidth 32 <<< 4)

/-- The command the decoder reads from a table row's bits: a command is one 32-bit word and bit 0 of the table is bit 0 of the word (30_encoding.md R66; spec/opcode_table.json). Bits at or above `nbits` are 0; a value too wide for one word is no command. -/
def decodeTableWord (nbits w : Nat) : Option Instr :=
  if w % 2 ^ nbits < 2 ^ 32 then (decode (BitVec.ofNat 32 (w % 2 ^ nbits))).toOption else none

end Sys2Proof
end

