-- ==== Sys2Proof/Machine/State.lean ====
section
/-! DEFINITION. The state of CORE (10_state.md R20, R21), its inputs and outputs on the bus, the reasons a step stops, and the state after reset. -/

namespace Sys2Proof.Machine

/-- `PHASE`, the state of the S2V accumulator (10_state.md R30). "The value 3 is never held", so there are three names (log entry 9). -/
inductive Phase where
  /-- 0: no chain is open. -/
  | idle
  /-- 1: a chain is open and `D` holds its accumulator. -/
  | chain
  /-- 2: the chain's final block has been placed in `R`. -/
  | done
  deriving DecidableEq, Repr

/-- The command errors of 60_exceptions.md R130. -/
inductive Failure where
  /-- 1: an illegal command word (30_encoding.md R64). -/
  | eill
  /-- 2: a length of 16 or more (30_encoding.md R65). -/
  | elen
  /-- 3: a chain step without an open chain (41_s2v.md R91). -/
  | ephase
  /-- 4: an absorb at the limit (41_s2v.md R97). -/
  | ehcnt
  deriving DecidableEq, Repr

/-- `ERR`, the completion code of the last command (10_state.md R27). Codes 5 to 7 are never written (log entry 9). -/
inductive ErrCode where
  | ok
  | failed (f : Failure)
  deriving DecidableEq, Repr

/-- The whole architectural state of CORE: the tuple of 10_state.md R20. -/
structure Regs where
  /-- `A`, first operand (R22). -/
  a : Block
  /-- `B`, second operand (R22). -/
  b : Block
  /-- `R`, result (R23). -/
  r : Block
  /-- `D`, running accumulator (R32). -/
  d : Block
  /-- `HCNT`, absorbs since the last S2V.INIT (R31). -/
  hcnt : BitVec 7
  /-- `PHASE` (R30). -/
  phase : Phase
  /-- `EQ`, comparator flag (R26). -/
  eq : Bool
  /-- `ERR` (R27). -/
  err : ErrCode
  /-- `ESTKY`, sticky error flag (R27). -/
  estky : Bool
  deriving DecidableEq, Repr

/-- The reset values of 10_state.md R21 and 70_reset_and_hazards.md R150. -/
def Regs.reset : Regs :=
  { a := 0, b := 0, r := 0, d := 0, hcnt := 0, phase := .idle, eq := false, err := .ok, estky := false }

/-- The width of a bus access (20_memory.md R43). -/
inductive Width where
  | w8
  | w16
  | w32
  /-- Wider than 32 bits. -/
  | wide
  deriving DecidableEq, Repr

/-- One host access to the window, at a byte offset 0x00..0xFF (20_memory.md R40, R45). -/
inductive Access where
  | read (width : Width) (off : BitVec 8)
  | write (width : Width) (off : BitVec 8) (w : Word)
  deriving DecidableEq, Repr

/-- What reaches CORE from outside: a bus access, or an edge of its reset input (70_reset_and_hazards.md R151). -/
inductive Input where
  | access (a : Access)
  | assertReset
  | releaseReset
  deriving DecidableEq, Repr

/-- The bus's answer to an admitted access (20_memory.md R44, R45). -/
inductive Response where
  /-- A read returned this word. -/
  | data (w : Word)
  /-- A write completed. -/
  | written
  deriving DecidableEq, Repr

/-- CORE and what stands at its boundary. Only `regs` is CORE's own state (R20). -/
structure State where
  /-- CORE's registers (10_state.md R20). -/
  regs : Regs
  /-- The reset input is asserted (70_reset_and_hazards.md R151). -/
  inReset : Bool
  /-- The host's and the platform's inputs still to come, oldest first (20_memory.md R52; the model's own, log entry 1). -/
  pending : List Input
  /-- The answer to the most recent admitted access (the model's own, log entry 2). -/
  response : Option Response
  deriving DecidableEq, Repr

/-- Why a step has no next state. All are raised by the bus access at the head of `pending`, never by a command; all are SAFE: the model stops where a chip might go on. -/
inductive Fault where
  /-- An 8-bit or 16-bit access (20_memory.md R43: a bus error, "a fault of the host program"). Raised by `serve`. Safe. -/
  | subWordAccess
  /-- An access wider than 32 bits (20_memory.md R43). Raised by `serve`. Safe. -/
  | overWideAccess
  /-- A 32-bit access at an offset that is not a multiple of 4 (20_memory.md R43). Raised by `serve`. Safe. -/
  | misalignedAccess
  /-- An access while reset is asserted: the platform decides (70_reset_and_hazards.md R151; 93_implementation_defined.md I15, "stuck"). Raised by `serveNext`. Safe. -/
  | accessInReset
  deriving DecidableEq, Repr

/-- Why a command has no meaning. Every command of the table has one, so no step refuses. -/
inductive Refusal where
  /-- Raised by `exec` for a command not modelled yet (none). Safe. -/
  | notModelled (mnemonic : String)
  deriving DecidableEq, Repr

/-- What a step or a command answers. -/
abbrev Result := Host.Outcome State Fault Refusal

/-- The machine right after reset: every register at its reset value (70_reset_and_hazards.md R150), reset released, no access made yet (log entries 1, 2, 6). -/
def State.reset : State :=
  { regs := Regs.reset, inReset := false, pending := [], response := none }

end Sys2Proof.Machine
end

