-- ==== Sys2Proof/Machine/Ops.lean ====
section
/-! DEFINITION. The named operations over the registers: one write per register, the success of a command, its failure (60_exceptions.md R132, the only exception entry CORE has: R135), and the phase check (41_s2v.md R91). -/

namespace Sys2Proof.Machine

/-- `A <- v`. -/
def State.setA (s : State) (v : Block) : State := { s with regs := { s.regs with a := v } }

/-- `B <- v`. -/
def State.setB (s : State) (v : Block) : State := { s with regs := { s.regs with b := v } }

/-- `R <- v`. -/
def State.setR (s : State) (v : Block) : State := { s with regs := { s.regs with r := v } }

/-- `D <- v`. -/
def State.setD (s : State) (v : Block) : State := { s with regs := { s.regs with d := v } }

/-- `HCNT <- v`. -/
def State.setHcnt (s : State) (v : BitVec 7) : State := { s with regs := { s.regs with hcnt := v } }

/-- `PHASE <- v`. -/
def State.setPhase (s : State) (v : Phase) : State := { s with regs := { s.regs with phase := v } }

/-- `EQ <- v`. -/
def State.setEq (s : State) (v : Bool) : State := { s with regs := { s.regs with eq := v } }

/-- `ERR <- v`. -/
def State.setErr (s : State) (v : ErrCode) : State := { s with regs := { s.regs with err := v } }

/-- `ESTKY <- v`. -/
def State.setEstky (s : State) (v : Bool) : State := { s with regs := { s.regs with estky := v } }

/-- The bus's answer to the access being served. -/
def State.respond (s : State) (v : Response) : State := { s with response := some v }

/-- `ERR <- OK`, before the body of a command that passed its checks (30_encoding.md R63). -/
def succeed (s : State) : State := s.setErr .ok

/-- The abort of the open chain by an `EHCNT` failure: `D <- 0; HCNT <- 0; PHASE <- IDLE` (41_s2v.md R97). -/
def abortChain (s : State) : State := ((s.setD 0).setHcnt 0).setPhase .idle

/-- `fail(E)`: `ERR <- E` and `ESTKY <- 1`; an `EHCNT` failure also aborts the chain; nothing else changes (60_exceptions.md R132). -/
def fail (f : Failure) (s : State) : State :=
  match f with
  | .eill => (s.setErr (.failed .eill)).setEstky true
  | .elen => (s.setErr (.failed .elen)).setEstky true
  | .ephase => (s.setErr (.failed .ephase)).setEstky true
  | .ehcnt => ((abortChain s).setErr (.failed .ehcnt)).setEstky true

/-- The error code of a rejected word (30_encoding.md R64, R65). -/
def failureOf : Reject → Failure
  | .reservedBits => .eill
  | .reservedOpcode => .eill
  | .lengthNotAllowed => .eill
  | .lengthTooLong => .elen

/-- The length check of PAD and S2V.PADEND (30_encoding.md R63, R65): `body` runs when `n` is below 16. -/
def checkLength (n : BitVec 5) (s : State) (body : State → Result) : Result :=
  if n.toNat < 16 then body s else .next (fail .elen s)

/-- The phase check of the chain steps (41_s2v.md R91): `body` runs when a chain is open. -/
def checkPhase (s : State) (body : State → Result) : Result :=
  if s.regs.phase = .chain then body s else .next (fail .ephase s)

end Sys2Proof.Machine
end

