-- ==== Sys2Proof/Machine/Control.lean ====
section
/-! DEFINITION. The control commands NOP and ZERO (43_control.md R120, R121). -/

namespace Sys2Proof.Machine

/-- `NOP`: nothing beyond `ERR <- OK` (43_control.md R120). -/
def execNop (s : State) : Result := .next (succeed s)

/-- `ZERO`: every register to its reset value (43_control.md R121). -/
def execZero (s : State) : Result := .next { s with regs := Regs.reset }

end Sys2Proof.Machine
end

