-- ==== Sys2Proof/Machine/Operands.lean ====
section
/-! DEFINITION. Blocks by bytes and by bus words: the big-endian byte order and the word lanes (00_scope.md R10, R11; 20_memory.md R45 to R48). -/

namespace Sys2Proof.Machine

/-- `X.byte[i]`; `X.byte[0]` is the most significant byte (00_scope.md R10). -/
def byteOf (x : Block) (i : Fin 16) : Byte := x.extractLsb' (8 * (15 - i.val)) 8

/-- The block whose byte `i` is `f i` (00_scope.md R10). -/
def ofBytes (f : Fin 16 → Byte) : Block :=
  (List.finRange 16).foldl (fun acc i => acc <<< 8 ||| (f i).setWidth 128) 0

/-- Byte `j` of a bus word, the lowest-numbered in bits 31:24 (20_memory.md R47). -/
def wordByte (w : Word) (j : Nat) : Byte := w.extractLsb' (8 * (3 - j)) 8

/-- The index of byte `j` of bus word `k` in its block (20_memory.md R47). -/
def lane (k j : Fin 4) : Fin 16 := ⟨4 * k.val + j.val, by omega⟩

/-- `word(X, k)` (20_memory.md R45). -/
def wordOf (x : Block) (k : Fin 4) : Word :=
  ((byteOf x (lane k 0)).setWidth 32 <<< 24) ||| ((byteOf x (lane k 1)).setWidth 32 <<< 16) |||
    ((byteOf x (lane k 2)).setWidth 32 <<< 8) ||| (byteOf x (lane k 3)).setWidth 32

/-- `setword(X, k, w)` (20_memory.md R45). -/
def setWord (x : Block) (k : Fin 4) (w : Word) : Block :=
  ofBytes (fun i => if i.val / 4 = k.val then wordByte w (i.val % 4) else byteOf x i)

/-- The block of four bus words, word 0 first (20_memory.md R47). -/
def ofWords (w0 w1 w2 w3 : Word) : Block :=
  setWord (setWord (setWord (setWord 0 0 w0) 1 w1) 2 w2) 3 w3

end Sys2Proof.Machine
end

