-- ==== Sys2Proof/Machine/Units.lean ====
section
/-! DEFINITION. The datapath units of 00_scope.md R1 that compute a block: doubling, padding and the IV mask. -/

namespace Sys2Proof.Machine

/-- `RPOLY` (00_scope.md R7). -/
def rpoly : Block := 0x87

/-- `PADBYTE` (00_scope.md R7). -/
def padByte : Byte := 0x80

/-- `IVCLR` (42_seal_open_units.md R110). -/
def ivclr : Block := 0xFFFFFFFFFFFFFFFF7FFFFFFF7FFFFFFF

/-- `dbl(v)` (40_dbl_pad.md R80). -/
def dbl (v : Block) : Block := (v <<< 1) ^^^ (if v.getLsbD 127 then rpoly else 0)

/-- `pad(X, n)` for `n` in 0..15, by bytes (40_dbl_pad.md R84). -/
def pad (x : Block) (n : Nat) : Block :=
  ofBytes (fun i => if i.val < n then byteOf x i else if i.val = n then padByte else 0)

/-- `ivmask(v)` (42_seal_open_units.md R110). -/
def ivmask (v : Block) : Block := v &&& ivclr

end Sys2Proof.Machine
end

