-- ==== Sys2Proof/Machine/DblPad.lean ====
section
/-! DEFINITION. The doubling and padding commands DBL and PAD (40_dbl_pad.md R82, R85). -/

namespace Sys2Proof.Machine

/-- `DBL`: `R <- dbl(A)` (40_dbl_pad.md R82). -/
def execDbl (s : State) : Result := .next ((succeed s).setR (dbl s.regs.a))

/-- `PAD n`: `R <- pad(A, n)`; `ELEN` from 16 on (40_dbl_pad.md R85). -/
def execPad (n : BitVec 5) (s : State) : Result :=
  checkLength n s fun s => .next ((succeed s).setR (pad s.regs.a n.toNat))

end Sys2Proof.Machine
end

