-- ==== Sys2Proof/Machine/S2V.lean ====
section
/-! DEFINITION. The S2V chaining commands S2V.INIT, S2V.ABSORB, S2V.XOREND and S2V.PADEND (41_s2v.md R92 to R97). -/

namespace Sys2Proof.Machine

/-- `S2V.INIT`: `D <- A; HCNT <- 0; PHASE <- CHAIN`, in any phase (41_s2v.md R92). -/
def execS2vInit (s : State) : Result :=
  .next ((((succeed s).setD s.regs.a).setHcnt 0).setPhase .chain)

/-- `D <- dbl(D) XOR A; HCNT <- HCNT + 1` (41_s2v.md R93). -/
def absorb (s : State) : State :=
  ((succeed s).setD (dbl s.regs.d ^^^ s.regs.a)).setHcnt (s.regs.hcnt + 1)

/-- `S2V.ABSORB`: `EPHASE` without an open chain, `EHCNT` at the limit (41_s2v.md R93, R97). -/
def execS2vAbsorb (s : State) : Result :=
  checkPhase s fun s =>
    if s.regs.hcnt.toNat = Config.hmax then .next (fail .ehcnt s) else .next (absorb s)

/-- The end of a chain: `R` takes the final block, `D <- 0`, `PHASE <- DONE`; `HCNT` keeps the count (41_s2v.md R94, R95). -/
def closeChain (s : State) (final : Block) : State :=
  (((succeed s).setR final).setD 0).setPhase .done

/-- `S2V.XOREND`: `R <- A XOR D` (41_s2v.md R94). -/
def execS2vXorend (s : State) : Result :=
  checkPhase s fun s => .next (closeChain s (s.regs.a ^^^ s.regs.d))

/-- `S2V.PADEND n`: `R <- pad(A, n) XOR dbl(D)`; `ELEN` before `EPHASE` (41_s2v.md R95). -/
def execS2vPadend (n : BitVec 5) (s : State) : Result :=
  checkLength n s fun s =>
    checkPhase s fun s => .next (closeChain s (pad s.regs.a n.toNat ^^^ dbl s.regs.d))

end Sys2Proof.Machine
end

