-- ==== Sys2Proof/Machine/Flags.lean ====
section
/-! DEFINITION. The comparator flag (42_seal_open_units.md R113) and the STATUS view: its packing and a host's reading of it (10_state.md R28). -/

namespace Sys2Proof.Machine

/-- The comparator's accumulator: the OR of the XORs of all 16 byte pairs (42_seal_open_units.md R113; 90_conflicts.md C5). -/
def ctAcc (a b : Block) : Byte :=
  (List.finRange 16).foldl (fun acc i => acc ||| (byteOf a i ^^^ byteOf b i)) 0

/-- `ct_eq(a, b)` (42_seal_open_units.md R113). -/
def ctEq (a b : Block) : Bool := ctAcc a b == 0

/-- The 2-bit value of `PHASE` (10_state.md R30). -/
def phaseBits : Phase → BitVec 2
  | .idle => 0
  | .chain => 1
  | .done => 2

/-- The 3-bit value of `ERR` (60_exceptions.md R130). -/
def errBits : ErrCode → BitVec 3
  | .ok => 0
  | .failed .eill => 1
  | .failed .elen => 2
  | .failed .ephase => 3
  | .failed .ehcnt => 4

/-- `STATUS` (10_state.md R28). -/
def statusWord (c : Regs) : Word :=
  (c.hcnt.setWidth 32 <<< 8) ||| ((phaseBits c.phase).setWidth 32 <<< 5) |||
    ((BitVec.ofBool c.eq).setWidth 32 <<< 4) ||| ((BitVec.ofBool c.estky).setWidth 32 <<< 3) |||
    (errBits c.err).setWidth 32

/-- A host's reading of the `ERR` field: the reserved codes 5 to 7 are refused (93_implementation_defined.md I10). -/
def errOfStatus (w : Word) : Option ErrCode :=
  match (w.extractLsb' 0 3).toNat with
  | 0 => some .ok
  | 1 => some (.failed .eill)
  | 2 => some (.failed .elen)
  | 3 => some (.failed .ephase)
  | 4 => some (.failed .ehcnt)
  | _ => none

/-- A host's reading of the `PHASE` field: the value 3 is refused (93_implementation_defined.md I11). -/
def phaseOfStatus (w : Word) : Option Phase :=
  match (w.extractLsb' 5 2).toNat with
  | 0 => some .idle
  | 1 => some .chain
  | 2 => some .done
  | _ => none

/-- A host's reading of the `ESTKY` field (10_state.md R28). -/
def estkyOfStatus (w : Word) : Bool := w.getLsbD 3

/-- A host's reading of the `EQ` field (10_state.md R28). -/
def eqOfStatus (w : Word) : Bool := w.getLsbD 4

/-- A host's reading of the `HCNT` field (10_state.md R28). -/
def hcntOfStatus (w : Word) : BitVec 7 := w.extractLsb' 8 7

end Sys2Proof.Machine
end

