-- ==== Sys2Proof/Machine/SealOpen.lean ====
section
/-! DEFINITION. The IV mask and comparator commands IVMASK and CMP (42_seal_open_units.md R111, R114). -/

namespace Sys2Proof.Machine

/-- `IVMASK`: `R <- ivmask(A)` (42_seal_open_units.md R111). -/
def execIvmask (s : State) : Result := .next ((succeed s).setR (ivmask s.regs.a))

/-- `CMP`: `EQ <- ct_eq(A, B)`; a mismatch is no failure (42_seal_open_units.md R114). -/
def execCmp (s : State) : Result := .next ((succeed s).setEq (ctEq s.regs.a s.regs.b))

end Sys2Proof.Machine
end

