-- ==== Sys2Proof/Machine/Dispatch.lean ====
section
/-! DEFINITION. The body of each command, with the checks that need its own fields or the state (30_encoding.md R62, R63). -/

namespace Sys2Proof.Machine

def exec (i : Instr) (s : State) : Host.Outcome State Fault Refusal :=
  match i with
  | .nop => Sys2Proof.Machine.execNop s
  | .dbl => Sys2Proof.Machine.execDbl s
  | .pad n => Sys2Proof.Machine.execPad n s
  | .s2vInit => Sys2Proof.Machine.execS2vInit s
  | .s2vAbsorb => Sys2Proof.Machine.execS2vAbsorb s
  | .s2vXorend => Sys2Proof.Machine.execS2vXorend s
  | .s2vPadend n => Sys2Proof.Machine.execS2vPadend n s
  | .ivmask => Sys2Proof.Machine.execIvmask s
  | .cmp => Sys2Proof.Machine.execCmp s
  | .zero => Sys2Proof.Machine.execZero s

end Sys2Proof.Machine
end

