-- ==== Sys2Proof/Machine/Bus.lean ====
section
/-! DEFINITION. The register window: its map, the admission of an access, BusRead, BusWrite and the command port, and the serving of one input (20_memory.md R40 to R53; 30_encoding.md R63; 70_reset_and_hazards.md R150, R151). -/

namespace Sys2Proof.Machine

/-- What stands at an aligned offset of the window (20_memory.md R41). -/
inductive Port where
  | cmd
  | status
  | a (k : Fin 4)
  | b (k : Fin 4)
  | r (k : Fin 4)
  | reserved
  deriving DecidableEq, Repr

/-- The register map of 20_memory.md R41; every other offset is reserved (R42). -/
def portAt (off : BitVec 8) : Port :=
  match off.toNat with
  | 0x00 => .cmd
  | 0x04 => .status
  | 0x10 => .a 0
  | 0x14 => .a 1
  | 0x18 => .a 2
  | 0x1C => .a 3
  | 0x20 => .b 0
  | 0x24 => .b 1
  | 0x28 => .b 2
  | 0x2C => .b 3
  | 0x30 => .r 0
  | 0x34 => .r 1
  | 0x38 => .r 2
  | 0x3C => .r 3
  | _ => .reserved

/-- Why an access is refused with a bus error, or none if it is admitted (20_memory.md R43; log entry 4). -/
def refusalOf (width : Width) (off : BitVec 8) : Option Fault :=
  match width with
  | .w8 => some .subWordAccess
  | .w16 => some .subWordAccess
  | .wide => some .overWideAccess
  | .w32 => if off.toNat % 4 = 0 then none else some .misalignedAccess

/-- `BusRead(off)` for an admitted offset (20_memory.md R45). -/
def busRead (off : BitVec 8) (c : Regs) : Word :=
  match portAt off with
  | .cmd => 0
  | .status => statusWord c
  | .a k => wordOf c.a k
  | .b k => wordOf c.b k
  | .r k => wordOf c.r k
  | .reserved => 0

/-- `execute(w)`: decode, and either fail or run the command (30_encoding.md R63). -/
def execute (w : Word) (s : State) : Result :=
  match decode w with
  | .error e => .next (fail (failureOf e) s)
  | .ok i => exec i s

/-- `BusWrite(off, w)` for an admitted offset (20_memory.md R45, R50). -/
def busWrite (off : BitVec 8) (w : Word) (s : State) : Result :=
  match portAt off with
  | .cmd => execute w s
  | .a k => .next (s.setA (setWord s.regs.a k w))
  | .b k => .next (s.setB (setWord s.regs.b k w))
  | .status => .next s
  | .r _ => .next s
  | .reserved => .next s

/-- One bus access: refused with a bus error, or admitted and answered (20_memory.md R43 to R45). -/
def serve (acc : Access) (s : State) : Result :=
  match acc with
  | .read width off =>
    match refusalOf width off with
    | some f => .fault f
    | none => .next (s.respond (.data (busRead off s.regs)))
  | .write width off w =>
    match refusalOf width off with
    | some f => .fault f
    | none => busWrite off w (s.respond .written)

/-- One input, the rest of the sequence being `rest` (70_reset_and_hazards.md R150, R151; log entries 5, 6). -/
def serveInput (i : Input) (rest : List Input) (s : State) : Result :=
  match i with
  | .assertReset => .next { s with regs := Regs.reset, inReset := true, pending := rest }
  | .releaseReset => .next { s with inReset := false, pending := rest }
  | .access acc => if s.inReset then .fault .accessInReset else serve acc { s with pending := rest }

/-- The oldest input, in order and one at a time (20_memory.md R52); with none, CORE keeps its state (70_reset_and_hazards.md R158; log entry 3). -/
def serveNext (s : State) : Result :=
  match s.pending with
  | [] => .next s
  | i :: rest => serveInput i rest s

end Sys2Proof.Machine
end

