-- ==== Sys2Proof/Machine/Step.lean ====
section
/-! DEFINITION. One step: the serving of the oldest input (00_scope.md R15; 20_memory.md R52). -/

namespace Sys2Proof.Machine

/-- One step of the machine. -/
def step (s : State) : Host.Outcome State Fault Refusal := Sys2Proof.Machine.serveNext s

/-- `s` with a host write of the command word `w` to CMD as its oldest input, and reset released (20_memory.md R44; log entry 1). CORE fetches nothing (10_state.md R25): this is where its next command comes from. -/
def State.withFetchWord (s : State) (nbits w : Nat) : State :=
  { s with
    inReset := false
    pending := .access (.write .w32 0x00 (BitVec.ofNat 32 (w % 2 ^ nbits))) :: s.pending }

end Sys2Proof.Machine
end

