-- ==== Sys2Proof/Machine/HostProc.lean ====
section
/-! DEFINITION. The host's side as the spec records it: the assembler forms (30_encoding.md R67, R68), the mapping of errors (60_exceptions.md R138), the reference algorithm S2V_ref and the host procedures S2V_host, Seal and Open (41_s2v.md R90, R96; 42_seal_open_units.md R116, R117), run on the machine's own step. -/

namespace Sys2Proof.Machine

/-- `WR off, w` (30_encoding.md R67). -/
def wr (off : BitVec 8) (w : Word) : Input := .access (.write .w32 off w)

/-- `RD off` (30_encoding.md R67). -/
def rd (off : BitVec 8) : Input := .access (.read .w32 off)

/-- A command mnemonic (30_encoding.md R67): `WR 0x00, enc(m, n)`. -/
def cmdLine (i : Instr) : Input := wr 0x00 (encode i)

/-- `LDA v` (30_encoding.md R68). -/
def lda (v : Block) : List Input :=
  [wr 0x10 (wordOf v 0), wr 0x14 (wordOf v 1), wr 0x18 (wordOf v 2), wr 0x1C (wordOf v 3)]

/-- `LDB v` (30_encoding.md R68). -/
def ldb (v : Block) : List Input :=
  [wr 0x20 (wordOf v 0), wr 0x24 (wordOf v 1), wr 0x28 (wordOf v 2), wr 0x2C (wordOf v 3)]

/-- `RDR` (30_encoding.md R68). -/
def rdr : List Input := [rd 0x30, rd 0x34, rd 0x38, rd 0x3C]

/-- `RDS` (30_encoding.md R68). -/
def rds : List Input := [rd 0x04]

/-- `ABS v` (30_encoding.md R68). -/
def absLine (v : Block) : List Input := lda v ++ [cmdLine .s2vAbsorb]

/-- `INIT v` (30_encoding.md R68). -/
def initLine (v : Block) : List Input := lda v ++ [cmdLine .s2vInit]

/-- How a host procedure ends without a result (60_exceptions.md R138). -/
inductive HostError where
  /-- Too many associated-data items, or a ciphertext below 16 bytes. -/
  | invalidInput
  /-- The tag does not match. -/
  | authenticationFailure
  /-- `EILL`, `ELEN`, `EPHASE`, a bus error or an unreadable STATUS: only a faulty host program meets one. -/
  | faultyProgram
  deriving DecidableEq, Repr

/-- What the host makes of `STATUS.ERR` (60_exceptions.md R138). -/
def hostErrorOf : ErrCode → Option HostError
  | .ok => none
  | .failed .ehcnt => some .invalidInput
  | .failed .eill => some .faultyProgram
  | .failed .elen => some .faultyProgram
  | .failed .ephase => some .faultyProgram

/-- The host performs its accesses one after another; each is the machine's next input. -/
def hostRun : List Input → State → Except HostError State
  | [], s => .ok s
  | i :: rest, s =>
    match step { s with pending := i :: s.pending } with
    | .next t => hostRun rest t
    | .fault _ => .error .faultyProgram
    | .refused _ => .error .faultyProgram

/-- The host reads one word (30_encoding.md R67 `RD`). -/
def hostRead (off : BitVec 8) (s : State) : Except HostError (Word × State) :=
  match hostRun [rd off] s with
  | .error e => .error e
  | .ok t =>
    match t.response with
    | some (.data w) => .ok (w, t)
    | some .written => .error .faultyProgram
    | none => .error .faultyProgram

/-- The host reads `R`, word by word (30_encoding.md R68 `RDR`). -/
def hostReadR (s : State) : Except HostError (Block × State) := do
  let (w0, s) ← hostRead 0x30 s
  let (w1, s) ← hostRead 0x34 s
  let (w2, s) ← hostRead 0x38 s
  let (w3, s) ← hostRead 0x3C s
  .ok (ofWords w0 w1 w2 w3, s)

/-- The host issues a command, reads STATUS and stops on an error (41_s2v.md R96; 60_exceptions.md R138). -/
def hostCommand (i : Instr) (s : State) : Except HostError State := do
  let s ← hostRun [cmdLine i] s
  let (w, s) ← hostRead 0x04 s
  match errOfStatus w with
  | none => .error .faultyProgram
  | some e =>
    match hostErrorOf e with
    | none => .ok s
    | some h => .error h

/-- The host loads `A` and issues a command on it. -/
def hostCommandOn (v : Block) (i : Instr) (s : State) : Except HostError State := do
  let s ← hostRun (lda v) s
  hostCommand i s

/-- The bytes of a block, byte 0 first (00_scope.md R10; 20_memory.md R46). -/
def blockBytes (x : Block) : List Byte := (List.finRange 16).map (byteOf x)

/-- The first 16 bytes of a byte string as a block, filled with zeros (41_s2v.md R96 `message || 0^(16-len(message))`). -/
def blockOfBytes (m : List Byte) : Block := ofBytes (fun i => m.getD i.val 0)

/-- The accumulator of `S2V_ref` after its headers, steps 1 and 2 (41_s2v.md R90). `mac` is the external MAC under K1, any function (93_implementation_defined.md I6). -/
def s2vChain (mac : List Byte → Block) (headers : List (List Byte)) : Block :=
  headers.foldl (fun d h => dbl d ^^^ mac h) (mac (List.replicate 16 0))

/-- `T` of step 3 of `S2V_ref`, from the accumulator and the message (41_s2v.md R90; 00_scope.md R13 for the half-open ranges). -/
def s2vFinal (d : Block) (message : List Byte) : List Byte :=
  if 16 ≤ message.length then
    message.take (message.length - 16) ++
      blockBytes (blockOfBytes (message.drop (message.length - 16)) ^^^ d)
  else
    blockBytes (pad (blockOfBytes message) message.length ^^^ dbl d)

/-- `S2V_ref(headers, message)` (41_s2v.md R90). -/
def s2vRef (mac : List Byte → Block) (headers : List (List Byte)) (message : List Byte) : Block :=
  mac (s2vFinal (s2vChain mac headers) message)

/-- The absorb loop of `S2V_host` (41_s2v.md R96). -/
def hostAbsorbs (mac : List Byte → Block) : List (List Byte) → State → Except HostError State
  | [], s => .ok s
  | h :: rest, s => do
    let s ← hostCommandOn (mac h) .s2vAbsorb s
    hostAbsorbs mac rest s

/-- `S2V_host(headers, message)` (41_s2v.md R96): the tag and the machine after the procedure. -/
def s2vHost (mac : List Byte → Block) (headers : List (List Byte)) (message : List Byte) (s : State) :
    Except HostError (Block × State) := do
  let s ← hostCommandOn (mac (List.replicate 16 0)) .s2vInit s
  let s ← hostAbsorbs mac headers s
  if 16 ≤ message.length then
    let s ← hostCommandOn (blockOfBytes (message.drop (message.length - 16))) .s2vXorend s
    let (r, s) ← hostReadR s
    .ok (mac (message.take (message.length - 16) ++ blockBytes r), s)
  else
    let s ← hostCommandOn (blockOfBytes message) (.s2vPadend (BitVec.ofNat 5 message.length)) s
    let (r, s) ← hostReadR s
    .ok (mac (blockBytes r), s)

/-- The counter block of a tag: `LDA iv; IVMASK; RDR` (42_seal_open_units.md R116, R117). -/
def hostCounterBlock (iv : Block) (s : State) : Except HostError (Block × State) := do
  let s ← hostCommandOn iv .ivmask s
  hostReadR s

/-- Seal (42_seal_open_units.md R116). `ctr c m` is the external CTR cipher under K2 from counter block `c` (93_implementation_defined.md I7). -/
def sealHost (mac : List Byte → Block) (ctr : Block → List Byte → List Byte)
    (headers : List (List Byte)) (plaintext : List Byte) (s : State) :
    Except HostError (List Byte × State) := do
  let (iv, s) ← s2vHost mac headers plaintext s
  let (c, s) ← hostCounterBlock iv s
  .ok (blockBytes iv ++ ctr c plaintext, s)

/-- Open (42_seal_open_units.md R117), with the host's length precheck before step 1. -/
def openHost (mac : List Byte → Block) (ctr : Block → List Byte → List Byte)
    (headers : List (List Byte)) (ciphertext : List Byte) (s : State) :
    Except HostError (List Byte × State) := do
  if ciphertext.length < 16 then .error .invalidInput
  else
    let iv := blockOfBytes (ciphertext.take 16)
    let (c, s) ← hostCounterBlock iv s
    let p := ctr c (ciphertext.drop 16)
    let (v, s) ← s2vHost mac headers p s
    let s ← hostRun (lda v ++ ldb iv) s
    let s ← hostCommand .cmp s
    let (w, s) ← hostRead 0x04 s
    if eqOfStatus w then .ok (p, s) else .error .authenticationFailure

end Sys2Proof.Machine
end

