-- ==== Sys2Proof/Machine/Platform.lean ====
section
/-! DEFINITION. The platform's part of CORE's boundary: where the window lies, which resets reach CORE (00_scope.md R9; 70_reset_and_hazards.md R151). No step reads any of it. -/

namespace Sys2Proof.Machine

/-- The bus address of a byte offset of the window (00_scope.md R9; 20_memory.md R40). -/
def busAddress (off : BitVec 8) : Nat := Config.base + off.toNat

/-- The platform's address decode: the offset an address selects, if it lies in the window (20_memory.md R40). -/
def windowOffset (addr : Nat) : Option (BitVec 8) :=
  if Config.base ≤ addr ∧ addr < Config.base + 256 then some (BitVec.ofNat 8 (addr - Config.base)) else none

/-- What a platform reset, asserted and later released, brings to CORE (70_reset_and_hazards.md R151; 93_implementation_defined.md I18). -/
def platformReset (source : Nat) : List Input :=
  if Config.resetReaches source then [.assertReset, .releaseReset] else []

end Sys2Proof.Machine
end

