-- ==== Sys2Proof/Safety.lean ====
section
/-! DEFINITION. The terms claims use: the invariant of CORE's registers, which inputs a safe host sends, and the inputs at the head of a state. -/

namespace Sys2Proof.Machine

/-- What every reachable state of CORE's registers satisfies: `HCNT` is in 0..HMAX (10_state.md R31); `D` is 0 outside an open chain (R32); in IDLE the count is 0 (R30, R31: every way into IDLE clears it); an error code never stands without the sticky flag (R27). -/
abbrev Regs.wf (c : Regs) : Prop :=
  c.hcnt.toNat ≤ Config.hmax ∧
  (c.phase ≠ .chain → c.d = 0) ∧
  (c.phase = .idle → c.hcnt = 0) ∧
  (c.err ≠ .ok → c.estky = true)

/-- The invariant of the machine: its registers are well formed, and while reset is asserted they hold their reset values (70_reset_and_hazards.md R150, R151). -/
abbrev State.wf (s : State) : Prop :=
  s.regs.wf ∧ (s.inReset = true → s.regs = Regs.reset)

/-- The access is admitted: 32 bits wide at an offset that is a multiple of 4 (20_memory.md R43). -/
def Access.admitted : Access → Bool
  | .read width off => width == .w32 && off.toNat % 4 == 0
  | .write width off _ => width == .w32 && off.toNat % 4 == 0

/-- A safe sequence of inputs from a reset level on: every access is admitted, and none is made while reset is asserted (20_memory.md R43; 70_reset_and_hazards.md R151). -/
def safeInputs : Bool → List Input → Bool
  | _, [] => true
  | _, .assertReset :: rest => safeInputs true rest
  | _, .releaseReset :: rest => safeInputs false rest
  | inReset, .access acc :: rest => !inReset && acc.admitted && safeInputs inReset rest

/-- The next input is a host write of the word `w` to CMD, and reset is released (20_memory.md R44). -/
abbrev State.commandNext (s : State) (w : Word) (rest : List Input) : Prop :=
  s.inReset = false ∧ s.pending = .access (.write .w32 0x00 w) :: rest

/-- The next input is a legal command word, that of `i` (30_encoding.md R62). -/
def State.runsNext (s : State) (i : Instr) : Prop :=
  ∃ w rest, s.commandNext w rest ∧ decode w = .ok i

/-- The next input asserts reset (70_reset_and_hazards.md R151). -/
def State.resetsNext (s : State) : Prop := ∃ rest, s.pending = .assertReset :: rest

/-- The next input is an admitted write at this offset (20_memory.md R45). -/
def State.writesNext (s : State) (off : BitVec 8) : Prop :=
  s.inReset = false ∧ ∃ w rest, s.pending = .access (.write .w32 off w) :: rest

/-- `s` once the write at the head of `pending` has been taken and acknowledged, its effect apart (20_memory.md R44). -/
def State.afterWrite (s : State) (rest : List Input) : State :=
  { s with pending := rest, response := some .written }

/-- `s` once the read at the head of `pending` has been answered with `w` (20_memory.md R45, R49). -/
def State.afterRead (s : State) (rest : List Input) (w : Word) : State :=
  { s with pending := rest, response := some (.data w) }

/-- `s` after a failure that changes `ERR` and `ESTKY` alone (60_exceptions.md R132). -/
def State.withError (s : State) (f : Failure) : State :=
  { s with regs := { s.regs with err := .failed f, estky := true } }

/-- `s` after an `EHCNT` failure (41_s2v.md R97). -/
def State.aborted (s : State) : State :=
  { s with regs := { s.regs with d := 0, hcnt := 0, phase := .idle, err := .failed .ehcnt, estky := true } }

/-- Every word with this opcode and a non-zero `LEN` or `RSV` fails with `EILL` (30_encoding.md R64), as the rules of the commands without a length say. -/
def illegalFieldsFail (op : BitVec 4) : Prop :=
  ∀ (w : Word) (s : State), opField w = op → (lenField w ≠ 0 ∨ rsvField w ≠ 0) →
    execute w s = .next (s.withError .eill)

/-- Every word with this opcode fails with `EILL` if `RSV` is not 0, and with `ELEN` if `RSV` is 0 and `LEN` is 16 or more (30_encoding.md R64, R65), as the rules of the commands with a length say. -/
def illegalLengthsFail (op : BitVec 4) : Prop :=
  ∀ (w : Word) (s : State), opField w = op →
    (rsvField w ≠ 0 → execute w s = .next (s.withError .eill)) ∧
    (rsvField w = 0 → 16 ≤ (lenField w).toNat → execute w s = .next (s.withError .elen))

end Sys2Proof.Machine
end

