-- ==== Sys2Proof/Certificates/Slice0/Obligations.lean ====
section
/-! DEFINITION. The statements about CORE, from the numbered rules of spec/. -/

open Sys2Proof Sys2Proof.Machine

/-! ### Reset, and the invariant -/

/-- R150: reset, from any state, puts every register into its reset value; STATUS then reads 0; ZERO leaves the same registers. -/
def Obligations.ResetPutsEveryRegisterToZero : Prop :=
  (∀ (s : State) (rest : List Input), s.pending = .assertReset :: rest →
    ∃ t, step s = .next t ∧ t.regs.a = 0 ∧ t.regs.b = 0 ∧ t.regs.r = 0 ∧ t.regs.d = 0 ∧ t.regs.hcnt = 0 ∧
      t.regs.phase = .idle ∧ t.regs.eq = false ∧ t.regs.err = .ok ∧ t.regs.estky = false ∧
      busRead 0x04 t.regs = 0 ∧ t.regs = State.reset.regs) ∧
  (∀ s : State, ∃ t, exec .zero s = .next t ∧ t.regs = State.reset.regs)

/-- R151 with I15: while reset is asserted an access has no step and the registers stay at their reset values until reset is released; the release changes no register. The stop is log entry 5, the reset input log entry 6. -/
def Obligations.ResetHoldsCoreUntilReleased : Prop :=
  (∀ (s : State) (acc : Access) (rest : List Input), s.inReset = true → s.pending = .access acc :: rest →
    step s = .fault .accessInReset) ∧
  (∀ (s : State) (rest : List Input), s.pending = .releaseReset :: rest →
    step s = .next { s with inReset := false, pending := rest }) ∧
  (∀ (s : State) (rest : List Input), s.pending = .assertReset :: rest →
    step s = .next { s with regs := State.reset.regs, inReset := true, pending := rest })

/-- The invariant of Safety.lean (R30, R31, R32, R27, R150, R151) holds after reset. -/
def Obligations.InvariantHoldsAtReset : Prop := State.reset.wf

/-- Every step keeps the invariant: HCNT in 0..126, D zero outside an open chain, HCNT zero in IDLE, no error code without the sticky flag, reset values while reset is asserted. -/
def Obligations.InvariantKeptByEveryStep : Prop :=
  ∀ s t : State, s.wf → step s = .next t → t.wf

/-! ### Encoding -/

/-- R60, R62, R67: the word of every legal command decodes to that command, at every length. -/
def Obligations.DecodeOfEncodeIsIdentity : Prop :=
  ∀ i : Instr, i.wf = true → decode (encode i) = .ok i

/-- R62, R64: every word that decodes is the one word of its command, and the command is legal. -/
def Obligations.EncodeOfDecodeIsIdentity : Prop :=
  ∀ (w : Word) (i : Instr), decode w = .ok i → encode i = w ∧ i.wf = true

/-- R64, R65: which words fail, with which code and what effect; every other word is a legal command. -/
def Obligations.IllegalWordsFailWithEillOrElen : Prop :=
  ∀ (w : Word) (s : State),
    ((rsvField w ≠ 0 ∨ 0xA ≤ (opField w).toNat ∨ (opField w ≠ 0x2 ∧ opField w ≠ 0x6 ∧ lenField w ≠ 0)) →
      execute w s = .next (s.withError .eill)) ∧
    (rsvField w = 0 → (opField w = 0x2 ∨ opField w = 0x6) → 16 ≤ (lenField w).toNat →
      execute w s = .next (s.withError .elen)) ∧
    (rsvField w = 0 → (opField w).toNat < 0xA →
      (lenField w = 0 ∨ ((opField w = 0x2 ∨ opField w = 0x6) ∧ (lenField w).toNat < 16)) →
      ∃ i, decode w = .ok i ∧ i.wf = true ∧ execute w s = exec i s)

/-- R69: the words it lists, for each legal form, and the words it lists as failing. -/
def Obligations.ListedCommandWordsDecode : Prop :=
  (decode 0x00000000 = .ok .nop ∧ decode 0x00000001 = .ok .dbl ∧ decode 0x00000002 = .ok (.pad 0) ∧
    decode 0x00000052 = .ok (.pad 5) ∧ decode 0x000000F2 = .ok (.pad 15) ∧ decode 0x00000003 = .ok .s2vInit ∧
    decode 0x00000004 = .ok .s2vAbsorb ∧ decode 0x00000005 = .ok .s2vXorend ∧
    decode 0x00000006 = .ok (.s2vPadend 0) ∧ decode 0x000000E6 = .ok (.s2vPadend 14) ∧
    decode 0x000000F6 = .ok (.s2vPadend 15) ∧ decode 0x00000007 = .ok .ivmask ∧ decode 0x00000008 = .ok .cmp ∧
    decode 0x00000009 = .ok .zero) ∧
  (∀ (s : State) (w : Word),
    w ∈ [0x0000000A, 0x0000000B, 0x0000000C, 0x0000000D, 0x0000000E, 0x0000000F, 0x00000011, 0x00000200,
      0x80000001] → execute w s = .next (s.withError .eill)) ∧
  (∀ (s : State) (w : Word), w ∈ [0x00000102, 0x000001F6] → execute w s = .next (s.withError .elen))

/-! ### The command port -/

/-- R44, R63: a step whose next input is a write of a legal word to CMD is that command, run from the state in which the write has been taken. -/
def Obligations.StepRunsDecodedCommand : Prop :=
  ∀ (s : State) (w : Word) (i : Instr) (rest : List Input),
    s.commandNext w rest → decode w = .ok i → step s = exec i (s.afterWrite rest)

/-- R44: a write of any word to CMD is executed in one step and completes on the bus, whether the command succeeds or fails. -/
def Obligations.CommandWriteAlwaysCompletes : Prop :=
  ∀ (s : State) (w : Word) (rest : List Input), s.commandNext w rest →
    ∃ t, step s = .next t ∧ execute w (s.afterWrite rest) = .next t ∧
      t.pending = rest ∧ t.response = some .written ∧ t.inReset = false

/-- R133: the code a command reports is that of the first check that applies, in the order RSV, OP, LEN, ELEN, EPHASE, EHCNT. -/
def Obligations.ErrorCodeFollowsCheckOrder : Prop :=
  ∀ (w : Word) (s : State), ∃ t, execute w s = .next t ∧
    t.regs.err =
      if rsvField w ≠ 0 then .failed .eill
      else if 0xA ≤ (opField w).toNat then .failed .eill
      else if opField w ≠ 0x2 ∧ opField w ≠ 0x6 ∧ lenField w ≠ 0 then .failed .eill
      else if (opField w = 0x2 ∨ opField w = 0x6) ∧ 16 ≤ (lenField w).toNat then .failed .elen
      else if (opField w = 0x4 ∨ opField w = 0x5 ∨ opField w = 0x6) ∧ s.regs.phase ≠ .chain then .failed .ephase
      else if opField w = 0x4 ∧ s.regs.hcnt.toNat = 126 then .failed .ehcnt
      else .ok

/-- R132: a failure writes ERR and ESTKY, an EHCNT failure also aborts the chain, and nothing else changes; the bus write that carried the command completes, and the next admitted access is served. -/
def Obligations.FailureChangesOnlyErrorFields : Prop :=
  (∀ (w : Word) (s t : State) (f : Failure), execute w s = .next t → t.regs.err = .failed f →
    t = if f = .ehcnt then s.aborted else s.withError f) ∧
  (∀ (w : Word) (s t : State) (f : Failure) (rest : List Input), s.commandNext w rest → step s = .next t →
    t.regs.err = .failed f →
    t = (if f = .ehcnt then (s.afterWrite rest).aborted else (s.afterWrite rest).withError f) ∧
    ∀ (acc : Access) (more : List Input), rest = .access acc :: more → acc.admitted = true →
      ∃ u, step t = .next u ∧ u.pending = more)

/-! ### The commands -/

/-- R82: DBL, its word, its illegal fields, its result and frame, its corner cases and its example. -/
def Obligations.DblDoublesAIntoR : Prop :=
  encode .dbl = 0x00000001 ∧ illegalFieldsFail 0x1 ∧
  (∀ s : State, exec .dbl s = .next { s with regs := { s.regs with r := dbl s.regs.a, err := .ok } }) ∧
  dbl 0 = 0 ∧ dbl 0x80000000000000000000000000000000 = 0x87 ∧
  dbl 0xFFFFFFFFFFFFFFFFFFFFFFFFFFFFFFFF = 0xFFFFFFFFFFFFFFFFFFFFFFFFFFFFFF79 ∧
  (∀ (v : Block) (i : Fin 15), (byteOf (dbl v) i.castSucc).getLsbD 0 = (byteOf v i.succ).getLsbD 7) ∧
  dbl 0x0e04dfafc1efbf040140582859bf073a = 0x1c09bf5f83df7e080280b050b37e0e74

/-- R85: PAD n, its words, its failures, its result and frame, its corner cases and its example. -/
def Obligations.PadPadsAIntoR : Prop :=
  (∀ n : BitVec 5, encode (.pad n) = BitVec.ofNat 32 (0x2 + 16 * n.toNat)) ∧ illegalLengthsFail 0x2 ∧
  (∀ (n : BitVec 5) (s : State), n.toNat < 16 →
    exec (.pad n) s = .next { s with regs := { s.regs with r := pad s.regs.a n.toNat, err := .ok } }) ∧
  (∀ (n : BitVec 5) (s : State), 16 ≤ n.toNat → exec (.pad n) s = .next (s.withError .elen)) ∧
  (∀ v : Block, pad v 0 = 0x80000000000000000000000000000000) ∧
  (∀ v : Block, byteOf (pad v 15) 15 = 0x80 ∧ ∀ i : Fin 16, i.val < 15 → byteOf (pad v 15) i = byteOf v i) ∧
  (∀ last : BitVec 16, pad (0x112233445566778899aabbccddee#112 ++ last) 14 = 0x112233445566778899aabbccddee8000)

/-- R92: S2V.INIT opens a chain in any phase; its word, its illegal fields, its result and frame, its example. -/
def Obligations.S2vInitOpensChain : Prop :=
  encode .s2vInit = 0x00000003 ∧ illegalFieldsFail 0x3 ∧
  (∀ s : State, exec .s2vInit s =
    .next { s with regs := { s.regs with d := s.regs.a, hcnt := 0, phase := .chain, err := .ok } }) ∧
  (∀ s : State, s.regs.a = 0x0e04dfafc1efbf040140582859bf073a →
    ∃ t, exec .s2vInit s = .next t ∧ t.regs.d = 0x0e04dfafc1efbf040140582859bf073a ∧ t.regs.hcnt = 0 ∧
      t.regs.phase = .chain)

/-- R93: S2V.ABSORB, its word, its failures, its result and frame, its corner cases and its example. -/
def Obligations.S2vAbsorbUpdatesAccumulator : Prop :=
  encode .s2vAbsorb = 0x00000004 ∧ illegalFieldsFail 0x4 ∧
  (∀ s : State, s.regs.phase = .chain → s.regs.hcnt.toNat ≠ 126 →
    exec .s2vAbsorb s = .next { s with regs := { s.regs with
      d := dbl s.regs.d ^^^ s.regs.a, hcnt := s.regs.hcnt + 1, err := .ok } }) ∧
  (∀ s : State, s.regs.phase ≠ .chain → exec .s2vAbsorb s = .next (s.withError .ephase)) ∧
  (∀ s : State, s.regs.phase = .chain → s.regs.hcnt.toNat = 126 → exec .s2vAbsorb s = .next s.aborted) ∧
  (∀ s : State, s.regs.phase = .chain → s.regs.hcnt.toNat = 125 →
    ∃ t, exec .s2vAbsorb s = .next t ∧ t.regs.err = .ok ∧ t.regs.hcnt.toNat = 126) ∧
  (∀ d : Block, dbl d ^^^ dbl d = 0) ∧
  (∃ d x y : Block, dbl (dbl d ^^^ x) ^^^ y ≠ dbl (dbl d ^^^ y) ^^^ x) ∧
  dbl 0x0e04dfafc1efbf040140582859bf073a ^^^ 0xf1f922b7f5193ce64ff80cb47d93f23b =
    0xedf09de876c642ee4d78bce4ceedfc4f

/-- R97: an absorb at the limit fails with EHCNT and aborts the chain, and a final command after it fails with EPHASE. -/
def Obligations.AbsorbAtLimitAbortsChain : Prop :=
  ∀ s : State, s.regs.phase = .chain → s.regs.hcnt.toNat = 126 →
    ∃ t, exec .s2vAbsorb s = .next t ∧ t.regs.d = 0 ∧ t.regs.hcnt = 0 ∧ t.regs.phase = .idle ∧
      t.regs.err = .failed .ehcnt ∧ t.regs.estky = true ∧ t.regs.r = s.regs.r ∧ t.regs.eq = s.regs.eq ∧
      t.regs.a = s.regs.a ∧ t.regs.b = s.regs.b ∧
      exec .s2vXorend t = .next (t.withError .ephase) ∧
      ∀ n : BitVec 5, n.toNat < 16 → exec (.s2vPadend n) t = .next (t.withError .ephase)

/-- R94: S2V.XOREND, its word, its failures, its result and frame, its corner case and its example. -/
def Obligations.S2vXorendClosesChain : Prop :=
  encode .s2vXorend = 0x00000005 ∧ illegalFieldsFail 0x5 ∧
  (∀ s : State, s.regs.phase = .chain → exec .s2vXorend s = .next { s with regs := { s.regs with
    r := s.regs.a ^^^ s.regs.d, d := 0, phase := .done, err := .ok } }) ∧
  (∀ s : State, s.regs.phase ≠ .chain → exec .s2vXorend s = .next (s.withError .ephase)) ∧
  (∀ s : State, s.regs.phase = .chain → s.regs.a = 0 →
    ∃ t, exec .s2vXorend s = .next t ∧ t.regs.r = s.regs.d) ∧
  (0x7074207573696e67205349562d414553 : Block) ^^^ 0x16592c17729a5a725567636168b48376 =
    0x662d0c6201f3341575342a3745f5c625

/-- R95: S2V.PADEND n, its words, its failures in their order, its result and frame, its corner cases and its example. -/
def Obligations.S2vPadendClosesChain : Prop :=
  (∀ n : BitVec 5, encode (.s2vPadend n) = BitVec.ofNat 32 (0x6 + 16 * n.toNat)) ∧ illegalLengthsFail 0x6 ∧
  (∀ (n : BitVec 5) (s : State), n.toNat < 16 → s.regs.phase = .chain →
    exec (.s2vPadend n) s = .next { s with regs := { s.regs with
      r := pad s.regs.a n.toNat ^^^ dbl s.regs.d, d := 0, phase := .done, err := .ok } }) ∧
  (∀ (n : BitVec 5) (s : State), 16 ≤ n.toNat → exec (.s2vPadend n) s = .next (s.withError .elen)) ∧
  (∀ (n : BitVec 5) (s : State), n.toNat < 16 → s.regs.phase ≠ .chain →
    exec (.s2vPadend n) s = .next (s.withError .ephase)) ∧
  (∀ s : State, s.regs.phase = .chain →
    ∃ t, exec (.s2vPadend 0) s = .next t ∧ t.regs.r = 0x80000000000000000000000000000000 ^^^ dbl s.regs.d) ∧
  (∀ (n : BitVec 5) (s : State) (a : Block), n.toNat < 16 → s.regs.phase = .chain →
    (∀ i : Fin 16, i.val < n.toNat → byteOf a i = byteOf s.regs.a i) →
    ∃ t, exec (.s2vPadend n) s = .next t ∧
      exec (.s2vPadend n) { s with regs := { s.regs with a := a } } =
        .next { t with regs := { t.regs with a := a } }) ∧
  pad 0x112233445566778899aabbccddee0000 14 ^^^ dbl 0xedf09de876c642ee4d78bce4ceedfc4f =
    0xcac30894b8eaf254035bc20540357819

/-- R111: IVMASK, its word, its illegal fields, its result and frame, its corner cases and its example. -/
def Obligations.IvmaskMasksAIntoR : Prop :=
  encode .ivmask = 0x00000007 ∧ illegalFieldsFail 0x7 ∧
  (∀ s : State, exec .ivmask s = .next { s with regs := { s.regs with r := ivmask s.regs.a, err := .ok } }) ∧
  (∀ v : Block, v.getLsbD 63 = false → v.getLsbD 31 = false → ivmask v = v) ∧
  ivmask 0xFFFFFFFFFFFFFFFFFFFFFFFFFFFFFFFF = 0xFFFFFFFFFFFFFFFF7FFFFFFF7FFFFFFF ∧ ivmask 0 = 0 ∧
  ivmask 0x85632d07c6e8f37f950acd320a2ecc93 = 0x85632d07c6e8f37f150acd320a2ecc93

/-- R114: CMP, its word, its illegal fields, its verdict and frame, its corner cases and its example. -/
def Obligations.CmpComparesAAndB : Prop :=
  encode .cmp = 0x00000008 ∧ illegalFieldsFail 0x8 ∧
  (∀ s : State, exec .cmp s =
    .next { s with regs := { s.regs with eq := decide (s.regs.a = s.regs.b), err := .ok } }) ∧
  (∀ (v : Block) (k : Fin 128), ctEq v (v ^^^ (1#128 <<< k.val)) = false) ∧
  (∀ v : Block, ctEq v v = true ∧ ctEq v (v ^^^ 0x01010000000000000000000000000000) = false)

/-- R120: NOP changes nothing but ERR; its word, its illegal fields, its example. -/
def Obligations.NopClearsOnlyErr : Prop :=
  encode .nop = 0x00000000 ∧ illegalFieldsFail 0x0 ∧
  (∀ s : State, exec .nop s = .next { s with regs := { s.regs with err := .ok } }) ∧
  (∀ s : State, s.regs.phase ≠ .chain → ∃ t u, exec .s2vAbsorb s = .next t ∧ t.regs.err = .failed .ephase ∧
    exec .nop t = .next u ∧ u.regs.err = .ok ∧ u.regs.estky = true)

/-- R121: ZERO puts every register to its reset value, twice as once, and STATUS then reads 0; a failing ZERO erases nothing. -/
def Obligations.ZeroErasesEveryRegister : Prop :=
  encode .zero = 0x00000009 ∧ illegalFieldsFail 0x9 ∧
  (∀ s : State, exec .zero s = .next { s with regs :=
    { a := 0, b := 0, r := 0, d := 0, hcnt := 0, phase := .idle, eq := false, err := .ok, estky := false } }) ∧
  (∀ s : State, ∃ t, exec .zero s = .next t ∧ exec .zero t = .next t ∧ t.regs = State.reset.regs ∧
    busRead 0x04 t.regs = 0)

/-- R91: the three chain steps fail with EPHASE outside CHAIN and then change only ERR and ESTKY; S2V.INIT opens a chain in any phase. -/
def Obligations.ChainStepsNeedOpenChain : Prop :=
  ∀ (s : State) (n : BitVec 5), n.toNat < 16 →
    (s.regs.phase ≠ .chain →
      exec .s2vAbsorb s = .next (s.withError .ephase) ∧ exec .s2vXorend s = .next (s.withError .ephase) ∧
      exec (.s2vPadend n) s = .next (s.withError .ephase)) ∧
    (s.regs.phase = .chain →
      ∀ i, i = .s2vAbsorb ∨ i = .s2vXorend ∨ i = .s2vPadend n →
        ∃ t, exec i s = .next t ∧ t.regs.err ≠ .failed .ephase) ∧
    ∃ t, exec .s2vInit s = .next t ∧ t.regs.phase = .chain

/-! ### The datapath units -/

/-- R80: `dbl` as a shift with reduction, and byte by byte. -/
def Obligations.DblByValueAndByBytes : Prop :=
  ∀ v : Block,
    (dbl v).toNat = (2 * v.toNat % 2 ^ 128) ^^^ (if 2 ^ 127 ≤ v.toNat then 0x87 else 0) ∧
    (∀ i : Fin 15, byteOf (dbl v) i.castSucc = (byteOf v i.castSucc <<< 1) ||| (byteOf v i.succ >>> 7)) ∧
    byteOf (dbl v) 15 = (byteOf v 15 <<< 1) ^^^ (if byteOf v 0 >>> 7 = 1 then 0x87 else 0)

/-- R81: `dbl` is multiplication by x modulo x^128 + x^7 + x^2 + x + 1 (bit k of a block being the coefficient of x^k), 0x87 is x^128 reduced, and `dbl` is zero at zero, linear, and a bijection with the inverse stated. -/
def Obligations.DblIsMultiplicationByX : Prop :=
  ∀ (poly : Block → Polynomial (ZMod 2)) (m : Polynomial (ZMod 2)) (half : Block → Block),
    (∀ v, poly v = ∑ k ∈ Finset.range 128, if v.getLsbD k then Polynomial.X ^ k else 0) →
    m = Polynomial.X ^ 128 + Polynomial.X ^ 7 + Polynomial.X ^ 2 + Polynomial.X + 1 →
    (∀ v, half v = if v.getLsbD 0 then ((v ^^^ 0x87) >>> 1) ||| (1#128 <<< 127) else v >>> 1) →
    (∀ v, m ∣ Polynomial.X * poly v - poly (dbl v)) ∧
    (poly 0x87 = Polynomial.X ^ 7 + Polynomial.X ^ 2 + Polynomial.X + 1 ∧ m ∣ Polynomial.X ^ 128 - poly 0x87) ∧
    dbl 0 = 0 ∧
    (∀ a b, dbl (a ^^^ b) = dbl a ^^^ dbl b) ∧
    Function.Bijective dbl ∧ (∀ v, half (dbl v) = v) ∧ (∀ v, dbl (half v) = v)

/-- R84: `pad` byte by byte, by value, and independent of the bytes from n on. -/
def Obligations.PadByBytesAndByValue : Prop :=
  ∀ (x : Block) (n : Nat), n < 16 →
    (∀ i : Fin 16, i.val < n → byteOf (pad x n) i = byteOf x i) ∧
    (∀ i : Fin 16, i.val = n → byteOf (pad x n) i = 0x80) ∧
    (∀ i : Fin 16, n < i.val → byteOf (pad x n) i = 0x00) ∧
    (∀ y : Block, (∀ i : Fin 16, i.val < n → byteOf y i = byteOf x i) → pad y n = pad x n) ∧
    pad x n = (x &&& ~~~BitVec.ofNat 128 (2 ^ (128 - 8 * n) - 1)) ||| BitVec.ofNat 128 (2 ^ (127 - 8 * n))

/-- R86: padding is injective on messages shorter than 16 bytes. -/
def Obligations.PadIsInjectiveOnShortMessages : Prop :=
  ∀ (x y : Block) (n m : Nat), n < 16 → m < 16 → pad x n = pad y m →
    n = m ∧ ∀ i : Fin 16, i.val < n → byteOf x i = byteOf y i

/-- R110: `ivmask` clears bit 7 of bytes 8 and 12 and keeps every other bit; in bus words, bit 31 of words 2 and 3. -/
def Obligations.IvmaskClearsTwoBits : Prop :=
  ∀ v : Block,
    ivmask v = v &&& 0xFFFFFFFFFFFFFFFF7FFFFFFF7FFFFFFF ∧
    (∀ (i : Fin 16) (k : Nat), k < 8 →
      (byteOf (ivmask v) i).getLsbD k = ((byteOf v i).getLsbD k && !((i = 8 ∨ i = 12) ∧ k = 7))) ∧
    (∀ k : Nat, (ivmask v).getLsbD k = (v.getLsbD k && !(k = 63 ∨ k = 31))) ∧
    (∀ (w : Fin 4) (k : Nat), k < 32 →
      (wordOf (ivmask v) w).getLsbD k = ((wordOf v w).getLsbD k && !((w = 2 ∨ w = 3) ∧ k = 31)))

/-- R112: `ivmask` is idempotent, changes at most two bits, distributes over XOR and AND, and has exactly four preimages of each output. -/
def Obligations.IvmaskLaws : Prop :=
  (∀ v, ivmask (ivmask v) = ivmask v) ∧
  (∀ (v : Block) (k : Nat), k ≠ 63 → k ≠ 31 → (ivmask v).getLsbD k = v.getLsbD k) ∧
  (∀ a b, ivmask (a ^^^ b) = ivmask a ^^^ ivmask b) ∧
  (∀ a b, ivmask (a &&& b) = ivmask a &&& ivmask b) ∧
  (∀ v : Block, ∃ p : List Block, p.length = 4 ∧ p.Nodup ∧ (∀ u, ivmask u = ivmask v ↔ u ∈ p) ∧
    ∀ u ∈ p, ∀ k : Nat, k ≠ 63 → k ≠ 31 → u.getLsbD k = v.getLsbD k)

/-- R113: the comparator accumulates the OR of the XORs of all byte pairs, and its verdict is equality of the values. -/
def Obligations.ComparatorIsEquality : Prop :=
  ∀ a b : Block,
    (∀ k : Nat, (ctAcc a b).getLsbD k = true ↔ ∃ i : Fin 16, (byteOf a i ^^^ byteOf b i).getLsbD k = true) ∧
    ctEq a b = decide (ctAcc a b = 0) ∧ ctEq a b = decide (a.toNat = b.toNat)

/-! ### The bus -/

/-- R28: STATUS holds each field in its bits, its reserved bits read 0, no reserved code appears, HCNT is at most HMAX in every state of the invariant, and a write to it is ignored. -/
def Obligations.StatusHoldsItsFields : Prop :=
  ∀ c : Regs,
    (busRead 0x04 c).extractLsb' 0 3 = errBits c.err ∧ (busRead 0x04 c).getLsbD 3 = c.estky ∧
    (busRead 0x04 c).getLsbD 4 = c.eq ∧ (busRead 0x04 c).extractLsb' 5 2 = phaseBits c.phase ∧
    (busRead 0x04 c).getLsbD 7 = false ∧ (busRead 0x04 c).extractLsb' 8 7 = c.hcnt ∧
    (busRead 0x04 c).extractLsb' 15 17 = 0 ∧
    (errBits .ok = 0 ∧ errBits (.failed .eill) = 1 ∧ errBits (.failed .elen) = 2 ∧
      errBits (.failed .ephase) = 3 ∧ errBits (.failed .ehcnt) = 4) ∧
    (phaseBits .idle = 0 ∧ phaseBits .chain = 1 ∧ phaseBits .done = 2) ∧
    ((busRead 0x04 c).extractLsb' 0 3).toNat ≤ 4 ∧ (busRead 0x04 c).extractLsb' 5 2 ≠ 3 ∧
    (c.wf → ((busRead 0x04 c).extractLsb' 8 7).toNat ≤ 126) ∧
    ∀ (w : Word) (s : State), busWrite 0x04 w s = .next s

/-- R28 with I10 and I11: a host that decodes STATUS reads back every field, and never meets a reserved code. -/
def Obligations.HostReadsStatusBack : Prop :=
  ∀ c : Regs,
    errOfStatus (busRead 0x04 c) = some c.err ∧ phaseOfStatus (busRead 0x04 c) = some c.phase ∧
    estkyOfStatus (busRead 0x04 c) = c.estky ∧ eqOfStatus (busRead 0x04 c) = c.eq ∧
    hcntOfStatus (busRead 0x04 c) = c.hcnt

/-- R41, R42, R45, R47, R49: an admitted read changes no register and returns the word the map gives. -/
def Obligations.BusReadReturnsMappedWord : Prop :=
  ∀ (s : State) (off : BitVec 8) (rest : List Input), s.inReset = false →
    s.pending = .access (.read .w32 off) :: rest → off.toNat % 4 = 0 →
    ∃ w : Word, step s = .next (s.afterRead rest w) ∧
      (off.toNat = 0x00 → w = 0) ∧ (off.toNat = 0x04 → w = statusWord s.regs) ∧
      (∀ k : Fin 4, off.toNat = 0x10 + 4 * k.val → w = s.regs.a.extractLsb' (96 - 32 * k.val) 32) ∧
      (∀ k : Fin 4, off.toNat = 0x20 + 4 * k.val → w = s.regs.b.extractLsb' (96 - 32 * k.val) 32) ∧
      (∀ k : Fin 4, off.toNat = 0x30 + 4 * k.val → w = s.regs.r.extractLsb' (96 - 32 * k.val) 32) ∧
      (off.toNat = 0x08 ∨ off.toNat = 0x0C ∨ 0x40 ≤ off.toNat → w = 0)

/-- R48: a bus write to word k of A or B changes that word's four bytes, each from its lane, and nothing else. -/
def Obligations.BusWriteChangesOnlyItsWord : Prop :=
  ∀ (s : State) (k : Fin 4) (w : Word) (rest : List Input), s.inReset = false →
    (s.pending = .access (.write .w32 (BitVec.ofNat 8 (0x10 + 4 * k.val)) w) :: rest →
      ∃ v : Block, step s = .next { s.afterWrite rest with regs := { s.regs with a := v } } ∧
        ∀ i : Fin 16, byteOf v i =
          if i.val / 4 = k.val then w.extractLsb' (24 - 8 * (i.val % 4)) 8 else byteOf s.regs.a i) ∧
    (s.pending = .access (.write .w32 (BitVec.ofNat 8 (0x20 + 4 * k.val)) w) :: rest →
      ∃ v : Block, step s = .next { s.afterWrite rest with regs := { s.regs with b := v } } ∧
        ∀ i : Fin 16, byteOf v i =
          if i.val / 4 = k.val then w.extractLsb' (24 - 8 * (i.val % 4)) 8 else byteOf s.regs.b i)

/-- R42, R50: a write to STATUS, to R or to a reserved offset completes and changes no register, and a reserved offset reads 0. -/
def Obligations.IgnoredWritesChangeNothing : Prop :=
  ∀ (s : State) (off : BitVec 8) (rest : List Input), s.inReset = false → off.toNat % 4 = 0 →
    (∀ w : Word, s.pending = .access (.write .w32 off w) :: rest →
      (off.toNat = 0x04 ∨ (0x30 ≤ off.toNat ∧ off.toNat ≤ 0x3C) ∨
        off.toNat = 0x08 ∨ off.toNat = 0x0C ∨ 0x40 ≤ off.toNat) →
      step s = .next (s.afterWrite rest)) ∧
    (s.pending = .access (.read .w32 off) :: rest →
      (off.toNat = 0x08 ∨ off.toNat = 0x0C ∨ 0x40 ≤ off.toNat) →
      step s = .next (s.afterRead rest 0))

/-- R43: an access that is not 32 bits wide at a multiple of 4 is a fault of the host program, even at CMD, named by its cause where there is one cause; every other access completes. -/
def Obligations.OnlyAlignedWordAccessesComplete : Prop :=
  ∀ (s : State) (width : Width) (off : BitVec 8) (w : Word) (rest : List Input), s.inReset = false →
    (s.pending = .access (.read width off) :: rest ∨ s.pending = .access (.write width off w) :: rest) →
    (width ≠ .w32 ∨ off.toNat % 4 ≠ 0 →
      step s = .fault .subWordAccess ∨ step s = .fault .overWideAccess ∨ step s = .fault .misalignedAccess) ∧
    (width = .w8 ∨ width = .w16 → off.toNat % 4 = 0 → step s = .fault .subWordAccess) ∧
    (width = .wide → off.toNat % 4 = 0 → step s = .fault .overWideAccess) ∧
    (width = .w32 → off.toNat % 4 ≠ 0 → step s = .fault .misalignedAccess) ∧
    (width = .w32 → off.toNat % 4 = 0 → ∃ t, step s = .next t)

/-- R158, R52: if every input is admitted the machine never stops, and after n steps the oldest n inputs have been served in order. That CORE idles with no input is log entry 3. -/
def Obligations.SafeInputsNeverStop : Prop :=
  ∀ (n : Nat) (s : State), safeInputs s.inReset s.pending = true →
    ∃ t : State, Host.Core.run Sys2Proof.core n s = .next t ∧ t.pending = s.pending.drop n ∧
      safeInputs t.inReset t.pending = true

/-- R9, R40: BASE is a multiple of 256, and the platform's address decode selects each offset at BASE plus it and nothing outside the window. -/
def Obligations.WindowDecodeInvertsBase : Prop :=
  Config.base % 256 = 0 ∧ (∀ off : BitVec 8, windowOffset (busAddress off) = some off) ∧
  (∀ (addr : Nat) (off : BitVec 8), windowOffset addr = some off → addr = busAddress off)

/-! ### Rules about the whole machine -/

/-- R26: EQ is computed by CMP alone, cleared by ZERO and reset alone, kept by everything else, seen as STATUS[4], and read by no command. -/
def Obligations.EqIsWrittenOnlyByCmpZeroAndReset : Prop :=
  (∀ s : State, ∃ t, exec .cmp s = .next t ∧
    (t.regs.eq = true ↔ ∀ i : Fin 16, byteOf s.regs.a i = byteOf s.regs.b i)) ∧
  (∀ s t : State, step s = .next t → t.regs.eq ≠ s.regs.eq →
    s.runsNext .cmp ∨ (t.regs.eq = false ∧ (s.runsNext .zero ∨ s.resetsNext))) ∧
  (∀ s t : State, step s = .next t → s.runsNext .zero ∨ s.resetsNext → t.regs.eq = false) ∧
  (∀ c : Regs, (busRead 0x04 c).getLsbD 4 = c.eq) ∧
  (∀ (i : Instr) (s t : State) (e : Bool), exec i s = .next t →
    ∃ t', exec i { s with regs := { s.regs with eq := e } } = .next t' ∧
      t = { t' with regs := { t'.regs with eq := t.regs.eq } })

/-- R27: success sets ERR to OK, a failure sets a code and ESTKY, only ZERO and reset clear ESTKY, a success other than ZERO keeps it, no other access writes either, and no command reads either. -/
def Obligations.ErrAndStickyFlagFollowCommands : Prop :=
  (∀ (i : Instr) (s t : State), exec i s = .next t →
    (t.regs.err ≠ .ok → t.regs.estky = true) ∧
    (t.regs.err = .ok → i ≠ .zero → t.regs.estky = s.regs.estky) ∧ (i = .zero → t.regs.estky = false)) ∧
  (∀ (w : Word) (s t : State) (e : Reject), decode w = .error e → execute w s = .next t →
    t.regs.err ≠ .ok ∧ t.regs.estky = true) ∧
  (∀ s t : State, step s = .next t → s.regs.estky = true → t.regs.estky = false →
    s.runsNext .zero ∨ s.resetsNext) ∧
  (∀ s t : State, step s = .next t → (t.regs.err ≠ s.regs.err ∨ t.regs.estky ≠ s.regs.estky) →
    s.writesNext 0x00 ∨ s.resetsNext) ∧
  (∀ e : ErrCode, (errBits e).toNat ≤ 4) ∧
  (∀ (i : Instr) (s t : State) (e : ErrCode) (k : Bool), exec i s = .next t →
    ∃ t', exec i { s with regs := { s.regs with err := e, estky := k } } = .next t' ∧
      t = { t' with regs := { t'.regs with estky := t.regs.estky } })

/-- R30: the values of PHASE, its transitions, and that nothing else changes it. -/
def Obligations.PhaseChangesOnlyByItsTransitions : Prop :=
  (phaseBits .idle = 0 ∧ phaseBits .chain = 1 ∧ phaseBits .done = 2 ∧ ∀ p, phaseBits p ≠ 3) ∧
  (∀ s : State, ∃ t, exec .s2vInit s = .next t ∧ t.regs.phase = .chain ∧ t.regs.d = s.regs.a ∧ t.regs.hcnt = 0) ∧
  (∀ s : State, ∃ t, exec .zero s = .next t ∧ t.regs.phase = .idle) ∧
  (∀ s t : State, step s = .next t → s.resetsNext → t.regs.phase = .idle) ∧
  (∀ (s : State) (n : BitVec 5), s.regs.phase = .chain → n.toNat < 16 →
    (∃ t, exec .s2vXorend s = .next t ∧ t.regs.phase = .done ∧ t.regs.d = 0) ∧
    (∃ t, exec (.s2vPadend n) s = .next t ∧ t.regs.phase = .done ∧ t.regs.d = 0) ∧
    (∃ t, exec .s2vAbsorb s = .next t ∧
      t.regs.phase = if s.regs.hcnt.toNat = 126 then .idle else .chain)) ∧
  (∀ s t : State, step s = .next t → t.regs.phase ≠ s.regs.phase →
    (s.runsNext .s2vInit ∧ t.regs.phase = .chain) ∨
    (s.regs.phase = .chain ∧ t.regs.phase = .done ∧ (s.runsNext .s2vXorend ∨ ∃ n, s.runsNext (.s2vPadend n))) ∨
    (s.regs.phase = .chain ∧ t.regs.phase = .idle ∧ s.runsNext .s2vAbsorb ∧ t.regs.err = .failed .ehcnt) ∨
    (t.regs.phase = .idle ∧ (s.runsNext .zero ∨ s.resetsNext)))

/-- R21, R22, R23: whatever step changes a register, its cause is one of the writers the state table lists for that register. -/
def Obligations.RegistersChangeOnlyByTheirWriters : Prop :=
  ∀ s t : State, step s = .next t → ¬ s.resetsNext → ¬ s.runsNext .zero →
    (t.regs.a ≠ s.regs.a → ∃ k : Fin 4, s.writesNext (BitVec.ofNat 8 (0x10 + 4 * k.val))) ∧
    (t.regs.b ≠ s.regs.b → ∃ k : Fin 4, s.writesNext (BitVec.ofNat 8 (0x20 + 4 * k.val))) ∧
    (t.regs.r ≠ s.regs.r → s.runsNext .dbl ∨ (∃ n, s.runsNext (.pad n)) ∨ s.runsNext .s2vXorend ∨
      (∃ n, s.runsNext (.s2vPadend n)) ∨ s.runsNext .ivmask) ∧
    (t.regs.d ≠ s.regs.d → s.runsNext .s2vInit ∨ s.runsNext .s2vAbsorb ∨ s.runsNext .s2vXorend ∨
      ∃ n, s.runsNext (.s2vPadend n)) ∧
    (t.regs.hcnt ≠ s.regs.hcnt → s.runsNext .s2vInit ∨ s.runsNext .s2vAbsorb) ∧
    (t.regs.phase ≠ s.regs.phase → s.runsNext .s2vInit ∨ s.runsNext .s2vXorend ∨
      (∃ n, s.runsNext (.s2vPadend n)) ∨ (s.runsNext .s2vAbsorb ∧ t.regs.err = .failed .ehcnt)) ∧
    (t.regs.eq ≠ s.regs.eq → s.runsNext .cmp) ∧
    (t.regs.err ≠ s.regs.err → s.writesNext 0x00) ∧
    (t.regs.estky ≠ s.regs.estky → s.writesNext 0x00 ∧ t.regs.err ≠ .ok ∧ t.regs.estky = true)

/-- R22: no command but CMP reads B: with another B every other command does the same to the rest of the state. -/
def Obligations.OnlyCmpReadsB : Prop :=
  ∀ (i : Instr) (s t : State) (b : Block), i ≠ .cmp → exec i s = .next t →
    exec i { s with regs := { s.regs with b := b } } =
      .next { t with regs := { t.regs with b := if i = .zero then 0 else b } }

/-- R24, R32: no bus read depends on D; D is 0 outside an open chain in every state of the invariant; S2V.XOREND with A = 0 shows it. -/
def Obligations.AccumulatorIsHiddenFromTheBus : Prop :=
  (∀ (s t : State) (d : Block) (width : Width) (off : BitVec 8) (rest : List Input),
    s.pending = .access (.read width off) :: rest → step s = .next t →
    ∃ t', step { s with regs := { s.regs with d := d } } = .next t' ∧ t'.response = t.response) ∧
  (∀ s : State, s.wf → s.regs.phase ≠ .chain → s.regs.d = 0) ∧
  (∀ s : State, s.regs.phase = .chain → s.regs.a = 0 → ∃ t, exec .s2vXorend s = .next t ∧ t.regs.r = s.regs.d)

/-- R31: HCNT grows by one exactly when S2V.ABSORB succeeds, is cleared by S2V.INIT, ZERO, reset and an EHCNT failure, and stays in 0..126 from every state of the invariant. -/
def Obligations.HcntCountsAbsorbs : Prop :=
  (∀ s t : State, s.wf → step s = .next t → t.regs.hcnt.toNat ≤ 126 ∧
    (s.runsNext .s2vInit ∨ s.runsNext .zero ∨ s.resetsNext → t.regs.hcnt = 0) ∧
    (s.runsNext .s2vAbsorb → t.regs.err = .ok → t.regs.hcnt.toNat = s.regs.hcnt.toNat + 1) ∧
    (s.runsNext .s2vAbsorb → t.regs.err = .failed .ehcnt → t.regs.hcnt = 0) ∧
    (t.regs.hcnt ≠ s.regs.hcnt →
      s.runsNext .s2vInit ∨ s.runsNext .zero ∨ s.resetsNext ∨ s.runsNext .s2vAbsorb))

/-- R31, R93, R97: after S2V.INIT, n absorbs of the A that stands give HCNT = n and the n-fold accumulator for every n up to 126, and the 127th aborts the chain. -/
def Obligations.ChainAdmitsExactlyHmaxAbsorbs : Prop :=
  ∀ (s : State) (n : Nat), s.inReset = false → n ≤ 127 →
    ∃ t, hostRun (cmdLine .s2vInit :: List.replicate n (cmdLine .s2vAbsorb)) s = .ok t ∧
      t.regs.a = s.regs.a ∧ t.regs.r = s.regs.r ∧ t.pending = s.pending ∧
      (n ≤ 126 → t.regs.hcnt.toNat = n ∧ t.regs.phase = .chain ∧ t.regs.err = .ok ∧
        t.regs.estky = s.regs.estky ∧ t.regs.d = (fun d => dbl d ^^^ s.regs.a)^[n] s.regs.a) ∧
      (n = 127 → t.regs.hcnt = 0 ∧ t.regs.phase = .idle ∧ t.regs.d = 0 ∧ t.regs.err = .failed .ehcnt ∧
        t.regs.estky = true)

/-! ### The host procedures -/

/-- R68: LDA and LDB load the block and nothing else, and RDR reads R. -/
def Obligations.PseudoInstructionsLoadAndRead : Prop :=
  ∀ (s : State) (v : Block), s.inReset = false →
    hostRun (lda v) s = .ok { s with regs := { s.regs with a := v }, response := some .written } ∧
    hostRun (ldb v) s = .ok { s with regs := { s.regs with b := v }, response := some .written } ∧
    ∃ t, hostReadR s = .ok (s.regs.r, t) ∧ t.regs = s.regs ∧ t.pending = s.pending ∧ t.inReset = false

/-- R98: for every MAC, every vector of at most HMAX headers and every message, the host procedure on CORE computes the reference S2V, from any state of CORE; after the absorbs `D` is the reference's accumulator, and the final command leaves step 3's block in `R`. -/
def Obligations.HostS2vComputesReference : Prop :=
  ∀ (mac : List Byte → Block) (headers : List (List Byte)) (message : List Byte) (s : State),
    s.inReset = false → headers.length ≤ 126 →
    ∃ t, s2vHost mac headers message s = .ok (s2vRef mac headers message, t) ∧
      t.inReset = false ∧ t.pending = s.pending ∧ t.regs.phase = .done ∧ t.regs.hcnt.toNat = headers.length ∧
      (16 ≤ message.length → t.regs.r =
        blockOfBytes (message.drop (message.length - 16)) ^^^ s2vChain mac headers) ∧
      (message.length < 16 → t.regs.r =
        pad (blockOfBytes message) message.length ^^^ dbl (s2vChain mac headers)) ∧
      ∃ u v, hostCommandOn (mac (List.replicate 16 0)) .s2vInit s = .ok u ∧
        hostAbsorbs mac headers u = .ok v ∧ v.regs.d = s2vChain mac headers

/-- R97, R138: with more than HMAX headers the host procedure ends in InvalidInput, whatever the message. -/
def Obligations.TooManyHeadersIsInvalidInput : Prop :=
  ∀ (mac : List Byte → Block) (headers : List (List Byte)) (message : List Byte) (s : State),
    s.inReset = false → 126 < headers.length → s2vHost mac headers message s = .error .invalidInput

/-- R116: Seal emits the unmasked tag, then the message under CTR from the masked tag. -/
def Obligations.SealEmitsTagAndCiphertext : Prop :=
  ∀ (mac : List Byte → Block) (ctr : Block → List Byte → List Byte) (headers : List (List Byte))
    (plaintext : List Byte) (s : State), s.inReset = false → headers.length ≤ 126 →
    ∃ t, sealHost mac ctr headers plaintext s =
      .ok (blockBytes (s2vRef mac headers plaintext) ++ ctr (ivmask (s2vRef mac headers plaintext)) plaintext, t)

/-- R117: Open returns the candidate plaintext when its recomputed tag is the received one, and otherwise fails with AuthenticationFailure; an input below 16 bytes is InvalidInput. -/
def Obligations.OpenReleasesPlaintextOnlyOnMatch : Prop :=
  ∀ (mac : List Byte → Block) (ctr : Block → List Byte → List Byte) (headers : List (List Byte))
    (iv : Block) (body short : List Byte) (s : State), s.inReset = false → headers.length ≤ 126 →
    (short.length < 16 → openHost mac ctr headers short s = .error .invalidInput) ∧
    (s2vRef mac headers (ctr (ivmask iv) body) = iv →
      ∃ t, openHost mac ctr headers (blockBytes iv ++ body) s = .ok (ctr (ivmask iv) body, t)) ∧
    (s2vRef mac headers (ctr (ivmask iv) body) ≠ iv →
      openHost mac ctr headers (blockBytes iv ++ body) s = .error .authenticationFailure)
end

