-- ==== Sys2Proof/Laws/Block.lean ====
section
/-! SUPPORT. Blocks by bytes and words: a block is its bytes, and what each byte of a built block is (00_scope.md R10, R11; 20_memory.md R47, R48). -/

namespace Sys2Proof.Machine

/-- Bit `k` of `X.byte[i]` is `val(X)[8*(15-i) + k]` (00_scope.md R11). -/
theorem getLsbD_byteOf (x : Block) (i : Fin 16) (k : Nat) :
    (byteOf x i).getLsbD k = (decide (k < 8) && x.getLsbD (8 * (15 - i.val) + k)) := by
  simp [byteOf, BitVec.getLsbD_extractLsb']

/-- A block is its 16 bytes (00_scope.md R10). -/
theorem block_ext {x y : Block} (h : ∀ i, byteOf x i = byteOf y i) : x = y := by
  apply BitVec.eq_of_getLsbD_eq
  intro k hk
  have := congrArg (fun b => b.getLsbD (k % 8)) (h ⟨15 - k / 8, by omega⟩)
  have e : 8 * (15 - (15 - k / 8)) + k % 8 = k := by omega
  simp only [getLsbD_byteOf, e] at this
  simpa [Nat.mod_lt] using this

/-- Bit `k` of a big-endian packing of bytes, counted from the last byte. -/
theorem getLsbD_packBytes (l : List Byte) (k : Nat) (hk : k < 128) :
    (l.foldl (fun (acc : Block) b => acc <<< 8 ||| b.setWidth 128) 0).getLsbD k =
      (l.reverse.getD (k / 8) 0).getLsbD (k % 8) := by
  induction l using List.reverseRecOn generalizing k with
  | nil => simp
  | append_singleton l b ih =>
    by_cases h : k < 8
    · simp [h, hk, Nat.div_eq_of_lt, Nat.mod_eq_of_lt]
    · obtain ⟨m, rfl⟩ : ∃ m, k = m + 8 := ⟨k - 8, by omega⟩
      have e : (m + 8) / 8 = m / 8 + 1 := by omega
      have e0 : b.getLsbD (m + 8) = false := BitVec.getLsbD_of_ge b _ (by omega)
      have := ih m (by omega)
      simp only [List.foldl_append, List.foldl_cons, List.foldl_nil, BitVec.getLsbD_or,
        BitVec.getLsbD_shiftLeft, BitVec.getLsbD_setWidth, e0, List.reverse_append, e,
        List.reverse_singleton, List.singleton_append, List.getD_cons_succ,
        Nat.add_mod_right, Nat.add_sub_cancel, this]
      simp [hk]

/-- Bit `k` of a block built from bytes (00_scope.md R11). -/
theorem getLsbD_ofBytes (f : Fin 16 → Byte) (k : Nat) (hk : k < 128) :
    (ofBytes f).getLsbD k = (f ⟨15 - k / 8, by omega⟩).getLsbD (k % 8) := by
  have h : ofBytes f = ((List.finRange 16).map f).foldl (fun (acc : Block) b => acc <<< 8 ||| b.setWidth 128) 0 := by
    rw [List.foldl_map]; rfl
  rw [h, getLsbD_packBytes _ _ hk, List.getD_eq_getElem _ _ (by simp; omega)]
  simp

@[simp] theorem byteOf_ofBytes (f : Fin 16 → Byte) (i : Fin 16) : byteOf (ofBytes f) i = f i := by
  apply BitVec.eq_of_getLsbD_eq
  intro k hk
  have e1 : (8 * (15 - i.val) + k) / 8 = 15 - i.val := by omega
  have e2 : (8 * (15 - i.val) + k) % 8 = k := by omega
  have e3 : (⟨15 - (15 - i.val), by omega⟩ : Fin 16) = i := Fin.ext (by simp only; omega)
  rw [getLsbD_byteOf, getLsbD_ofBytes f _ (by omega)]
  simp only [e1, e2, e3, hk, decide_true, Bool.true_and]

@[simp] theorem ofBytes_byteOf (x : Block) : ofBytes (byteOf x) = x :=
  block_ext fun i => by simp

@[simp] theorem byteOf_xor (x y : Block) (i : Fin 16) :
    byteOf (x ^^^ y) i = byteOf x i ^^^ byteOf y i := by
  ext k hk; simp [byteOf]

@[simp] theorem byteOf_zero (i : Fin 16) : byteOf 0 i = 0 := by
  ext k hk; simp [byteOf]

@[simp] theorem byteOf_pad (x : Block) (n : Nat) (i : Fin 16) :
    byteOf (pad x n) i = if i.val < n then byteOf x i else if i.val = n then padByte else 0 := by
  simp [pad]

@[simp] theorem byteOf_setWord (x : Block) (k : Fin 4) (w : Word) (i : Fin 16) :
    byteOf (setWord x k w) i = if i.val / 4 = k.val then wordByte w (i.val % 4) else byteOf x i := by
  simp [setWord]

/-- `word(X, k)` is bits 127-32k down to 96-32k of the value (20_memory.md R45), bit by bit. -/
theorem getLsbD_wordOf (x : Block) (k : Fin 4) (j : Nat) :
    (wordOf x k).getLsbD j = (decide (j < 32) && x.getLsbD (96 - 32 * k.val + j)) := by
  have hk := k.isLt
  by_cases h : j < 32
  · simp only [wordOf, BitVec.getLsbD_or, BitVec.getLsbD_shiftLeft, BitVec.getLsbD_setWidth,
      getLsbD_byteOf, lane]
    rcases (by omega : j < 8 ∨ (8 ≤ j ∧ j < 16) ∨ (16 ≤ j ∧ j < 24) ∨ 24 ≤ j) with h1 | h1 | h1 | h1
    · have e : 8 * (12 - 4 * k.val) + j = 96 - 32 * k.val + j := by omega
      simp [h, h1, e, show j < 16 by omega, show j < 24 by omega]
    · have e : 8 * (13 - 4 * k.val) + (j - 8) = 96 - 32 * k.val + j := by omega
      simp [h, h1, e, show ¬ j < 8 by omega, show j - 8 < 8 by omega, show j - 8 < 32 by omega, show j < 24 by omega]
    · have e : 8 * (14 - 4 * k.val) + (j - 16) = 96 - 32 * k.val + j := by omega
      simp [h, h1, e, show ¬ j < 8 by omega, show ¬ j - 8 < 8 by omega, show j - 16 < 8 by omega, show j - 16 < 32 by omega, show ¬ j < 16 by omega]
    · have e : 8 * (15 - 4 * k.val) + (j - 24) = 96 - 32 * k.val + j := by omega
      simp [h, e, show ¬ j < 8 by omega, show ¬ j - 8 < 8 by omega, show ¬ j - 16 < 8 by omega, show ¬ j < 16 by omega, show ¬ j < 24 by omega, show j - 24 < 8 by omega, show j - 24 < 32 by omega]
  · rw [BitVec.getLsbD_of_ge _ _ (by omega)]; simp [h]

@[simp] theorem wordByte_wordOf (x : Block) (k j : Fin 4) :
    wordByte (wordOf x k) j.val = byteOf x (lane k j) := by
  apply BitVec.eq_of_getLsbD_eq
  intro b hb
  have e : 96 - 32 * k.val + (8 * (3 - j.val) + b) = 8 * (15 - (4 * k.val + j.val)) + b := by omega
  rw [getLsbD_byteOf, wordByte, BitVec.getLsbD_extractLsb', getLsbD_wordOf, e]
  simp [lane, hb, show 8 * (3 - j.val) + b < 32 by omega]

/-- Writing the four words of a block makes it that block, whatever stood there (30_encoding.md R68 `LDA`). -/
theorem setWord_wordOf (x v : Block) :
    setWord (setWord (setWord (setWord x 0 (wordOf v 0)) 1 (wordOf v 1)) 2 (wordOf v 2)) 3 (wordOf v 3) = v := by
  refine block_ext fun i => ?_
  have h (k : Fin 4) (hk : i.val / 4 = k.val) : wordByte (wordOf v k) (i.val % 4) = byteOf v i := by
    rw [wordByte_wordOf v k ⟨i.val % 4, by omega⟩]
    exact congrArg _ (Fin.ext (by simp only [lane]; omega))
  simp only [byteOf_setWord]
  rcases (by omega : i.val / 4 = 0 ∨ i.val / 4 = 1 ∨ i.val / 4 = 2 ∨ i.val / 4 = 3) with e | e | e | e
  · simpa [e] using h 0 e
  · simpa [e] using h 1 e
  · simpa [e] using h 2 e
  · simpa [e] using h 3 e

/-- The words of a block make it up again (20_memory.md R47). -/
@[simp] theorem ofWords_wordOf (v : Block) :
    ofWords (wordOf v 0) (wordOf v 1) (wordOf v 2) (wordOf v 3) = v :=
  setWord_wordOf 0 v

end Sys2Proof.Machine
end

