-- ==== Sys2Proof/Laws/Core.lean ====
section
/-! SUPPORT. Runs of the machine behind the host's interface, one step at a time. -/

namespace Sys2Proof.Machine

/-- One step of a run. -/
theorem host_run_succ (M : Host.Core) {s u : M.State} (n : Nat) (h : M.step s = .next u) :
    Host.Core.run M (n + 1) s = Host.Core.run M n u := by
  simp only [Host.Core.run, h]

/-- One step of a run of CORE. -/
theorem core_run_succ {s u : State} (n : Nat) (h : step s = .next u) :
    Host.Core.run Sys2Proof.core (n + 1) s = Host.Core.run Sys2Proof.core n u :=
  host_run_succ Sys2Proof.core n h

end Sys2Proof.Machine
end

