-- ==== Sys2Proof/Laws/Decode.lean ====
section
/-! SUPPORT. The command word by its fields (30_encoding.md R60). -/

namespace Sys2Proof

/-- A word is its three fields (30_encoding.md R60). -/
theorem word_ext_fields {v w : Word} (hr : rsvField v = rsvField w) (hl : lenField v = lenField w)
    (ho : opField v = opField w) : v = w := by
  apply BitVec.eq_of_getLsbD_eq
  intro k hk
  have h : ∀ {n m : Nat} (a : Nat), v.extractLsb' n m = w.extractLsb' n m → a < m →
      v.getLsbD (n + a) = w.getLsbD (n + a) := by
    intro n m a e ha
    have := congrArg (fun b => b.getLsbD a) e
    simpa [BitVec.getLsbD_extractLsb', ha] using this
  rcases (by omega : k < 4 ∨ (4 ≤ k ∧ k < 9) ∨ 9 ≤ k) with h1 | h1 | h1
  · simpa using h k ho h1
  · simpa [show 4 + (k - 4) = k by omega] using h (k - 4) hl (by omega)
  · simpa [show 9 + (k - 9) = k by omega] using h (k - 9) hr (by omega)

theorem withoutLength_ok {n : BitVec 5} {i j : Instr} :
    withoutLength n i = .ok j ↔ n = 0 ∧ i = j := by
  unfold withoutLength; split <;> simp_all

theorem withLength_ok {n : BitVec 5} {i j : Instr} :
    withLength n i = .ok j ↔ n.toNat < 16 ∧ i = j := by
  unfold withLength; split <;> simp_all

/-- The decoder on a word whose `RSV` is 0. -/
theorem decode_of_rsv {w : Word} (h : rsvField w = 0) :
    decode w = decodeFields (opField w) (lenField w) := by
  simp [decode, h]

end Sys2Proof
end

