-- ==== Sys2Proof/Laws/State.lean ====
section
/-! SUPPORT. One lemma per update and field of State: what each named write of Machine/Ops.lean does to `regs`, and that it leaves the bus side alone. -/

namespace Sys2Proof.Machine.State

variable (s : State)

@[simp] theorem setA_regs (v : Block) : (s.setA v).regs = { s.regs with a := v } := rfl
@[simp] theorem setA_inReset (v : Block) : (s.setA v).inReset = s.inReset := rfl
@[simp] theorem setA_pending (v : Block) : (s.setA v).pending = s.pending := rfl
@[simp] theorem setA_response (v : Block) : (s.setA v).response = s.response := rfl

@[simp] theorem setB_regs (v : Block) : (s.setB v).regs = { s.regs with b := v } := rfl
@[simp] theorem setB_inReset (v : Block) : (s.setB v).inReset = s.inReset := rfl
@[simp] theorem setB_pending (v : Block) : (s.setB v).pending = s.pending := rfl
@[simp] theorem setB_response (v : Block) : (s.setB v).response = s.response := rfl

@[simp] theorem setR_regs (v : Block) : (s.setR v).regs = { s.regs with r := v } := rfl
@[simp] theorem setR_inReset (v : Block) : (s.setR v).inReset = s.inReset := rfl
@[simp] theorem setR_pending (v : Block) : (s.setR v).pending = s.pending := rfl
@[simp] theorem setR_response (v : Block) : (s.setR v).response = s.response := rfl

@[simp] theorem setD_regs (v : Block) : (s.setD v).regs = { s.regs with d := v } := rfl
@[simp] theorem setD_inReset (v : Block) : (s.setD v).inReset = s.inReset := rfl
@[simp] theorem setD_pending (v : Block) : (s.setD v).pending = s.pending := rfl
@[simp] theorem setD_response (v : Block) : (s.setD v).response = s.response := rfl

@[simp] theorem setHcnt_regs (v : BitVec 7) : (s.setHcnt v).regs = { s.regs with hcnt := v } := rfl
@[simp] theorem setHcnt_inReset (v : BitVec 7) : (s.setHcnt v).inReset = s.inReset := rfl
@[simp] theorem setHcnt_pending (v : BitVec 7) : (s.setHcnt v).pending = s.pending := rfl
@[simp] theorem setHcnt_response (v : BitVec 7) : (s.setHcnt v).response = s.response := rfl

@[simp] theorem setPhase_regs (v : Phase) : (s.setPhase v).regs = { s.regs with phase := v } := rfl
@[simp] theorem setPhase_inReset (v : Phase) : (s.setPhase v).inReset = s.inReset := rfl
@[simp] theorem setPhase_pending (v : Phase) : (s.setPhase v).pending = s.pending := rfl
@[simp] theorem setPhase_response (v : Phase) : (s.setPhase v).response = s.response := rfl

@[simp] theorem setEq_regs (v : Bool) : (s.setEq v).regs = { s.regs with eq := v } := rfl
@[simp] theorem setEq_inReset (v : Bool) : (s.setEq v).inReset = s.inReset := rfl
@[simp] theorem setEq_pending (v : Bool) : (s.setEq v).pending = s.pending := rfl
@[simp] theorem setEq_response (v : Bool) : (s.setEq v).response = s.response := rfl

@[simp] theorem setErr_regs (v : ErrCode) : (s.setErr v).regs = { s.regs with err := v } := rfl
@[simp] theorem setErr_inReset (v : ErrCode) : (s.setErr v).inReset = s.inReset := rfl
@[simp] theorem setErr_pending (v : ErrCode) : (s.setErr v).pending = s.pending := rfl
@[simp] theorem setErr_response (v : ErrCode) : (s.setErr v).response = s.response := rfl

@[simp] theorem setEstky_regs (v : Bool) : (s.setEstky v).regs = { s.regs with estky := v } := rfl
@[simp] theorem setEstky_inReset (v : Bool) : (s.setEstky v).inReset = s.inReset := rfl
@[simp] theorem setEstky_pending (v : Bool) : (s.setEstky v).pending = s.pending := rfl
@[simp] theorem setEstky_response (v : Bool) : (s.setEstky v).response = s.response := rfl

@[simp] theorem respond_regs (v : Response) : (s.respond v).regs = s.regs := rfl
@[simp] theorem respond_inReset (v : Response) : (s.respond v).inReset = s.inReset := rfl
@[simp] theorem respond_pending (v : Response) : (s.respond v).pending = s.pending := rfl
@[simp] theorem respond_response (v : Response) : (s.respond v).response = some v := rfl

end Sys2Proof.Machine.State
end

