-- ==== Sys2Proof/Laws/Ops.lean ====
section
/-! SUPPORT. One lemma per shared operation of Machine/Ops.lean: everything it can do. -/

namespace Sys2Proof.Machine

variable {s t : State}

theorem succeed_eq : succeed s = { s with regs := { s.regs with err := .ok } } := rfl

/-- A failure other than `EHCNT` writes the two error fields alone (60_exceptions.md R132). -/
theorem fail_eq_of_ne_ehcnt {f : Failure} (hf : f ≠ .ehcnt) :
    fail f s = { s with regs := { s.regs with err := .failed f, estky := true } } := by
  cases f <;> first | rfl | exact absurd rfl hf

/-- An `EHCNT` failure also aborts the chain (41_s2v.md R97). -/
theorem fail_ehcnt_eq :
    fail .ehcnt s =
      { s with regs := { s.regs with d := 0, hcnt := 0, phase := .idle, err := .failed .ehcnt, estky := true } } :=
  rfl

@[simp] theorem fail_err (f : Failure) : (fail f s).regs.err = .failed f := by cases f <;> rfl
@[simp] theorem fail_estky (f : Failure) : (fail f s).regs.estky = true := by cases f <;> rfl
@[simp] theorem fail_a (f : Failure) : (fail f s).regs.a = s.regs.a := by cases f <;> rfl
@[simp] theorem fail_b (f : Failure) : (fail f s).regs.b = s.regs.b := by cases f <;> rfl
@[simp] theorem fail_r (f : Failure) : (fail f s).regs.r = s.regs.r := by cases f <;> rfl
@[simp] theorem fail_eq (f : Failure) : (fail f s).regs.eq = s.regs.eq := by cases f <;> rfl
@[simp] theorem fail_inReset (f : Failure) : (fail f s).inReset = s.inReset := by cases f <;> rfl
@[simp] theorem fail_pending (f : Failure) : (fail f s).pending = s.pending := by cases f <;> rfl
@[simp] theorem fail_response (f : Failure) : (fail f s).response = s.response := by cases f <;> rfl

theorem failureOf_ne_ehcnt (e : Reject) : failureOf e ≠ .ehcnt := by cases e <;> decide

theorem failureOf_ne_ephase (e : Reject) : failureOf e ≠ .ephase := by cases e <;> decide

/-- What the length check can do (30_encoding.md R65). -/
theorem checkLength_cases (n : BitVec 5) (s : State) (body : State → Result) :
    (n.toNat < 16 ∧ checkLength n s body = body s) ∨
      (16 ≤ n.toNat ∧ checkLength n s body = .next (fail .elen s)) := by
  unfold checkLength
  split
  · exact .inl ⟨‹_›, rfl⟩
  · exact .inr ⟨by omega, rfl⟩

/-- What the phase check can do (41_s2v.md R91). -/
theorem checkPhase_cases (s : State) (body : State → Result) :
    (s.regs.phase = .chain ∧ checkPhase s body = body s) ∨
      (s.regs.phase ≠ .chain ∧ checkPhase s body = .next (fail .ephase s)) := by
  unfold checkPhase
  split
  · exact .inl ⟨‹_›, rfl⟩
  · exact .inr ⟨‹_›, rfl⟩

end Sys2Proof.Machine
end

