-- ==== Sys2Proof/Laws/PerInstr.lean ====
section
/-! SUPPORT. Statements about every command as syntax, one lemma per constructor. -/

namespace Sys2Proof.Laws.EncodeFields

/-- The fields of a command's word are its opcode, its length and zeros (30_encoding.md R60, R61, R67). -/
def Statement (i : Instr) : Prop :=
  opField (encode i) = opcodeOf i ∧ lenField (encode i) = lengthOf i ∧ rsvField (encode i) = 0

theorem nop : Statement .nop := by unfold Statement; decide
theorem dbl : Statement .dbl := by unfold Statement; decide
theorem pad (n : BitVec 5) : Statement (.pad n) := by revert n; unfold Statement; decide
theorem s2vInit : Statement .s2vInit := by unfold Statement; decide
theorem s2vAbsorb : Statement .s2vAbsorb := by unfold Statement; decide
theorem s2vXorend : Statement .s2vXorend := by unfold Statement; decide
theorem s2vPadend (n : BitVec 5) : Statement (.s2vPadend n) := by revert n; unfold Statement; decide
theorem ivmask : Statement .ivmask := by unfold Statement; decide
theorem cmp : Statement .cmp := by unfold Statement; decide
theorem zero : Statement .zero := by unfold Statement; decide

end Sys2Proof.Laws.EncodeFields
end

