-- ==== Sys2Proof/Laws/Step.lean ====
section
/-! SUPPORT. What the machine can do, said once: the cases of a command, of a bus write and of a step. Later proofs cite these and unfold none of them. -/

namespace Sys2Proof.Machine

variable {s t : State}

/-- A command leaves the bus side alone (10_state.md R20: a command changes CORE's own state only). -/
theorem exec_bus_side {i : Instr} (h : exec i s = .next t) :
    t.inReset = s.inReset ∧ t.pending = s.pending ∧ t.response = s.response := by
  cases i
  case nop => cases h; exact ⟨rfl, rfl, rfl⟩
  case dbl => cases h; exact ⟨rfl, rfl, rfl⟩
  case pad n =>
    rcases checkLength_cases n s _ with ⟨-, e⟩ | ⟨-, e⟩ <;>
      (rw [exec, execPad, e] at h; cases h; exact ⟨rfl, rfl, rfl⟩)
  case s2vInit => cases h; exact ⟨rfl, rfl, rfl⟩
  case s2vAbsorb =>
    rcases checkPhase_cases s _ with ⟨-, e⟩ | ⟨-, e⟩ <;> rw [exec, execS2vAbsorb, e] at h
    · split at h <;> (cases h; exact ⟨rfl, rfl, rfl⟩)
    · cases h; exact ⟨rfl, rfl, rfl⟩
  case s2vXorend =>
    rcases checkPhase_cases s _ with ⟨-, e⟩ | ⟨-, e⟩ <;>
      (rw [exec, execS2vXorend, e] at h; cases h; exact ⟨rfl, rfl, rfl⟩)
  case s2vPadend n =>
    rcases checkLength_cases n s _ with ⟨-, e⟩ | ⟨-, e⟩ <;> rw [exec, execS2vPadend, e] at h
    · rcases checkPhase_cases s _ with ⟨-, e⟩ | ⟨-, e⟩ <;>
        (rw [e] at h; cases h; exact ⟨rfl, rfl, rfl⟩)
    · cases h; exact ⟨rfl, rfl, rfl⟩
  case ivmask => cases h; exact ⟨rfl, rfl, rfl⟩
  case cmp => cases h; exact ⟨rfl, rfl, rfl⟩
  case zero => cases h; exact ⟨rfl, rfl, rfl⟩

/-- What `execute` can do: fail with a code of the word, or run the command the word holds (30_encoding.md R63). -/
theorem execute_cases (w : Word) (s : State) :
    (∃ e, decode w = .error e ∧ execute w s = .next (fail (failureOf e) s)) ∨
      (∃ i, decode w = .ok i ∧ execute w s = exec i s) := by
  unfold execute
  split
  · exact .inl ⟨_, ‹_›, rfl⟩
  · exact .inr ⟨_, ‹_›, rfl⟩

/-- The register map, read off (20_memory.md R41, R42). -/
theorem portAt_cases (off : BitVec 8) :
    (off.toNat = 0 ∧ portAt off = .cmd) ∨ (off.toNat = 4 ∧ portAt off = .status) ∨
      (∃ k : Fin 4, off.toNat = 0x10 + 4 * k.val ∧ portAt off = .a k) ∨
      (∃ k : Fin 4, off.toNat = 0x20 + 4 * k.val ∧ portAt off = .b k) ∨
      (∃ k : Fin 4, off.toNat = 0x30 + 4 * k.val ∧ portAt off = .r k) ∨
      ((off.toNat % 4 ≠ 0 ∨ off.toNat = 8 ∨ off.toNat = 12 ∨ 0x40 ≤ off.toNat) ∧ portAt off = .reserved) := by
  unfold portAt
  split
  case h_1 h => exact .inl ⟨h, rfl⟩
  case h_2 h => exact .inr (.inl ⟨h, rfl⟩)
  case h_3 h => exact .inr (.inr (.inl ⟨0, h, rfl⟩))
  case h_4 h => exact .inr (.inr (.inl ⟨1, h, rfl⟩))
  case h_5 h => exact .inr (.inr (.inl ⟨2, h, rfl⟩))
  case h_6 h => exact .inr (.inr (.inl ⟨3, h, rfl⟩))
  case h_7 h => exact .inr (.inr (.inr (.inl ⟨0, h, rfl⟩)))
  case h_8 h => exact .inr (.inr (.inr (.inl ⟨1, h, rfl⟩)))
  case h_9 h => exact .inr (.inr (.inr (.inl ⟨2, h, rfl⟩)))
  case h_10 h => exact .inr (.inr (.inr (.inl ⟨3, h, rfl⟩)))
  case h_11 h => exact .inr (.inr (.inr (.inr (.inl ⟨0, h, rfl⟩))))
  case h_12 h => exact .inr (.inr (.inr (.inr (.inl ⟨1, h, rfl⟩))))
  case h_13 h => exact .inr (.inr (.inr (.inr (.inl ⟨2, h, rfl⟩))))
  case h_14 h => exact .inr (.inr (.inr (.inr (.inl ⟨3, h, rfl⟩))))
  case h_15 =>
    refine .inr (.inr (.inr (.inr (.inr ⟨?_, rfl⟩))))
    simp only [imp_false] at *
    omega

/-- What a bus write can do (20_memory.md R45). -/
theorem busWrite_cases (off : BitVec 8) (w : Word) (s : State) :
    (off.toNat = 0 ∧ busWrite off w s = execute w s) ∨
      (∃ k : Fin 4, off.toNat = 0x10 + 4 * k.val ∧ busWrite off w s = .next (s.setA (setWord s.regs.a k w))) ∨
      (∃ k : Fin 4, off.toNat = 0x20 + 4 * k.val ∧ busWrite off w s = .next (s.setB (setWord s.regs.b k w))) ∨
      ((off.toNat % 4 ≠ 0 ∨ off.toNat = 4 ∨ off.toNat = 8 ∨ off.toNat = 12 ∨ 0x30 ≤ off.toNat) ∧
        busWrite off w s = .next s) := by
  rcases portAt_cases off with ⟨h, e⟩ | ⟨h, e⟩ | ⟨k, h, e⟩ | ⟨k, h, e⟩ | ⟨k, h, e⟩ | ⟨h, e⟩
  · exact .inl ⟨h, by simp only [busWrite, e]⟩
  · exact .inr (.inr (.inr ⟨by omega, by simp only [busWrite, e]⟩))
  · exact .inr (.inl ⟨k, h, by simp only [busWrite, e]⟩)
  · exact .inr (.inr (.inl ⟨k, h, by simp only [busWrite, e]⟩))
  · exact .inr (.inr (.inr ⟨by omega, by simp only [busWrite, e]⟩))
  · exact .inr (.inr (.inr ⟨by omega, by simp only [busWrite, e]⟩))

/-- The only access that is admitted is a 32-bit one at a multiple of 4 (20_memory.md R43). -/
theorem refusalOf_none {width : Width} {off : BitVec 8} :
    refusalOf width off = none ↔ width = .w32 ∧ off.toNat % 4 = 0 := by
  cases width <;> simp [refusalOf]

/-- What a step can do when it answers a next state (20_memory.md R43 to R52; 70_reset_and_hazards.md R150, R151, R158). -/
theorem step_cases (h : step s = .next t) :
    (s.pending = [] ∧ t = s) ∨
      (∃ rest, s.pending = .assertReset :: rest ∧
        t = { s with regs := Regs.reset, inReset := true, pending := rest }) ∨
      (∃ rest, s.pending = .releaseReset :: rest ∧ t = { s with inReset := false, pending := rest }) ∨
      (∃ rest off, s.inReset = false ∧ s.pending = .access (.read .w32 off) :: rest ∧ off.toNat % 4 = 0 ∧
        t = { s with pending := rest, response := some (.data (busRead off s.regs)) }) ∨
      (∃ rest off w, s.inReset = false ∧ s.pending = .access (.write .w32 off w) :: rest ∧ off.toNat % 4 = 0 ∧
        busWrite off w { s with pending := rest, response := some .written } = .next t) := by
  unfold step serveNext at h
  split at h
  · exact .inl ⟨‹_›, by cases h; rfl⟩
  next i rest hp =>
    cases i with
    | assertReset => exact .inr (.inl ⟨rest, hp, by cases h; rfl⟩)
    | releaseReset => exact .inr (.inr (.inl ⟨rest, hp, by cases h; rfl⟩))
    | access acc =>
      simp only [serveInput] at h
      split at h
      · cases h
      next hr =>
        have hr : s.inReset = false := by simpa using hr
        cases acc with
        | read width off =>
          simp only [serve] at h
          split at h
          · cases h
          next hn =>
            obtain ⟨rfl, ha⟩ := refusalOf_none.1 hn
            exact .inr (.inr (.inr (.inl ⟨rest, off, hr, hp, ha, by cases h; rfl⟩)))
        | write width off w =>
          simp only [serve] at h
          split at h
          · cases h
          next hn =>
            obtain ⟨rfl, ha⟩ := refusalOf_none.1 hn
            exact .inr (.inr (.inr (.inr ⟨rest, off, w, hr, hp, ha, h⟩)))

end Sys2Proof.Machine
end

