-- ==== Sys2Proof/Tests/Slice0.lean ====
section
/-! SUPPORT. Tests with expected values from spec/ (the vector or rule is named in each), and a witness for every obligation with hypotheses. -/

namespace Sys2Proof.Tests

open Sys2Proof.Machine

/-! ### Helpers -/

/-- CORE with these registers and these inputs to come, out of reset. -/
def given (c : Regs) (p : List Input := []) : State :=
  { regs := c, inReset := false, pending := p, response := none }

/-- What `f` shows of the state after a result, if there is one. -/
def after {α : Type} (f : State → α) : Result → Option α
  | .next t => some (f t)
  | .fault _ => none
  | .refused _ => none

/-- The fault a result stops with. -/
def faultOf : Result → Option Fault
  | .next _ => none
  | .fault f => some f
  | .refused _ => none

/-- The start state of 95_test_vectors.md section 2.6. -/
def full : Regs :=
  { a := 0x0123456789abcdeffedcba9876543210, b := 7, r := 9, d := 3, hcnt := 4, phase := .chain, eq := true,
    err := .ok, estky := false }

/-- An open chain with this count, accumulator and operand. -/
def chain (hcnt : BitVec 7) (d a : Block) : Regs :=
  { Regs.reset with a := a, d := d, hcnt := hcnt, phase := .chain }

/-- A write of a word to CMD. -/
def cmd (w : Word) : Input := .access (.write .w32 0x00 w)

/-! ### Well-formedness: each check refuses an ill-formed term (30_encoding.md R65) -/

theorem test_wf_pad_16_refused : (Instr.pad 16).wf = false := by decide
theorem test_wf_padend_16_refused : (Instr.s2vPadend 16).wf = false := by decide
theorem test_wf_padend_31_refused : (Instr.s2vPadend 31).wf = false := by decide
theorem test_wf_pad_15_admitted : (Instr.pad 15).wf = true := by decide

/-! ### Decoding: RSV, LEN and OP written out from 30_encoding.md R60, R62 -/

theorem test_decode_nop : decode 0b00000000000000000000000_00000_0000 = .ok .nop := by rfl
theorem test_decode_dbl : decode 0b00000000000000000000000_00000_0001 = .ok .dbl := by rfl
theorem test_decode_pad_5 : decode 0b00000000000000000000000_00101_0010 = .ok (.pad 5) := by rfl
theorem test_decode_init : decode 0b00000000000000000000000_00000_0011 = .ok .s2vInit := by rfl
theorem test_decode_absorb : decode 0b00000000000000000000000_00000_0100 = .ok .s2vAbsorb := by rfl
theorem test_decode_xorend : decode 0b00000000000000000000000_00000_0101 = .ok .s2vXorend := by rfl
theorem test_decode_padend_14 : decode 0b00000000000000000000000_01110_0110 = .ok (.s2vPadend 14) := by rfl
theorem test_decode_ivmask : decode 0b00000000000000000000000_00000_0111 = .ok .ivmask := by rfl
theorem test_decode_cmp : decode 0b00000000000000000000000_00000_1000 = .ok .cmp := by rfl
theorem test_decode_zero : decode 0b00000000000000000000000_00000_1001 = .ok .zero := by rfl

/-- R64 (a): `RSV` is tested before `OP` and `LEN`. -/
theorem test_decode_reserved_bits : decode 0b10000000000000000000000_11111_1111 = .error .reservedBits := by rfl
/-- R64 (b): `OP` is tested before `LEN`. -/
theorem test_decode_reserved_opcode : decode 0b00000000000000000000000_00001_1010 = .error .reservedOpcode := by rfl
/-- R64 (c), V-ENC-8. -/
theorem test_decode_length_not_allowed : decode 0b00000000000000000000000_11111_1000 = .error .lengthNotAllowed := by rfl
/-- R65, V-ENC-6. -/
theorem test_decode_length_too_long : decode 0b00000000000000000000000_10000_0010 = .error .lengthTooLong := by rfl

theorem test_table_word : decodeTableWord 32 0x000000E6 = some (.s2vPadend 14) := by decide
theorem test_table_word_illegal : decodeTableWord 32 0x0000000A = none := by decide

/-- The next step of `withFetchWord` runs the command of the word, here S2V.INIT (41_s2v.md R92). -/
theorem test_fetch_word_runs :
    after (fun t => (t.regs.phase, t.pending)) (step (State.reset.withFetchWord 32 0x00000003)) = some (.chain, []) := by
  decide

/-! ### The commands -/

/-- V-NOP-1. -/
theorem test_nop_keeps_sticky_flag :
    after (fun t => (t.regs.err, t.regs.estky)) (exec .nop (given { full with err := .failed .eill, estky := true })) =
      some (.ok, true) := by decide

/-- V-DBL-5. -/
theorem test_dbl_msb_and_lsb :
    after (fun t => t.regs.r) (exec .dbl (given { Regs.reset with a := 0x80000000000000000000000000000001 })) =
      some 0x85 := by decide

/-- V-DBL-10. -/
theorem test_dbl_crosses_bytes :
    after (fun t => t.regs.r) (exec .dbl (given { Regs.reset with a := 0x80 })) = some 0x100 := by decide

/-- V-PAD-8. -/
theorem test_pad_3 :
    after (fun t => t.regs.r) (exec (.pad 3) (given { Regs.reset with a := 0x80808080808080808080808080808080 })) =
      some 0x80808080000000000000000000000000 := by decide

/-- V-PAD-7. -/
theorem test_pad_15 :
    after (fun t => t.regs.r) (exec (.pad 15) (given { Regs.reset with a := 0xffffffffffffffffffffffffffffffff })) =
      some 0xffffffffffffffffffffffffffffff80 := by decide

/-- V-S2V-2. -/
theorem test_init_restarts_chain :
    after (fun t => (t.regs.d, t.regs.hcnt)) (exec .s2vInit (given (chain 5 0x0e04dfafc1efbf040140582859bf073a 1))) =
      some (1, 0) := by decide

/-- V-S2V-3. -/
theorem test_init_after_done_keeps_result :
    after (fun t => (t.regs.r, t.regs.phase))
      (exec .s2vInit (given { Regs.reset with a := 1, r := 0xabc, hcnt := 2, phase := .done })) =
      some (0xabc, .chain) := by decide

/-- V-S2V-4. -/
theorem test_absorb_rfc_header :
    after (fun t => (t.regs.d, t.regs.hcnt)) (exec .s2vAbsorb
      (given (chain 0 0x0e04dfafc1efbf040140582859bf073a 0xf1f922b7f5193ce64ff80cb47d93f23b))) =
      some (0xedf09de876c642ee4d78bce4ceedfc4f, 1) := by decide

/-- V-S2V-8. -/
theorem test_absorb_over_limit_aborts :
    after (fun t => (t.regs.phase, t.regs.err)) (exec .s2vAbsorb (given (chain 126 1 0))) =
      some (.idle, .failed .ehcnt) := by decide

/-- V-S2V-12. -/
theorem test_xorend_rfc_tail :
    after (fun t => (t.regs.r, t.regs.d)) (exec .s2vXorend
      (given (chain 3 0x16592c17729a5a725567636168b48376 0x7074207573696e67205349562d414553))) =
      some (0x662d0c6201f3341575342a3745f5c625, 0) := by decide

/-- V-S2V-13. -/
theorem test_xorend_in_idle_fails :
    after (fun t => (t.regs.r, t.regs.err)) (exec .s2vXorend (given { Regs.reset with a := 5 })) =
      some (0, .failed .ephase) := by decide

/-- V-S2V-16. -/
theorem test_padend_15_with_carry :
    after (fun t => t.regs.r) (exec (.s2vPadend 15)
      (given (chain 0 0x80000000000000000000000000000000 0xffffffffffffffffffffffffffffffff))) =
      some 0xffffffffffffffffffffffffffffff07 := by decide

/-- V-S2V-18. -/
theorem test_padend_16_in_idle_is_elen :
    after (fun t => t.regs.err) (execute 0x00000106 State.reset) = some (.failed .elen) := by decide

/-- V-IVM-4: the bits beside the cleared ones are kept. -/
theorem test_ivmask_neighbours :
    after (fun t => t.regs.r) (exec .ivmask (given { Regs.reset with a := 0x00000000000000014000000140000000 })) =
      some 0x00000000000000014000000140000000 := by decide

/-- V-IVM-6. -/
theorem test_ivmask_rfc_tag :
    after (fun t => t.regs.r) (exec .ivmask (given { Regs.reset with a := 0x7bdb6e3b432667eb06f4d14bff2fbd0f })) =
      some 0x7bdb6e3b432667eb06f4d14b7f2fbd0f := by decide

/-- V-CMP-1. -/
theorem test_cmp_equal :
    after (fun t => t.regs.eq) (exec .cmp (given { Regs.reset with
      a := 0x85632d07c6e8f37f950acd320a2ecc93, b := 0x85632d07c6e8f37f950acd320a2ecc93 })) = some true := by decide

/-- V-CMP-5: differences that an XOR accumulation would lose (90_conflicts.md C5). -/
theorem test_cmp_cancelling_differences :
    after (fun t => t.regs.eq) (exec .cmp (given { Regs.reset with
      a := 0x85632d07c6e8f37f950acd320a2ecc93, b := 0x84622d07c6e8f37f950acd320a2ecc93 })) = some false := by decide

/-- V-ZERO-1. -/
theorem test_zero_from_full :
    after (fun t => (t.regs, busRead 0x04 t.regs)) (exec .zero (given full)) = some (Regs.reset, 0) := by decide

/-- V-ENC-9: a failing ZERO erases nothing. -/
theorem test_failing_zero_erases_nothing :
    after (fun t => (t.regs.a, busRead 0x04 t.regs)) (execute 0x00000019 (given full)) =
      some (0x0123456789abcdeffedcba9876543210, 0x00000439) := by decide

/-- V-ENC-7: `EILL` wins over `ELEN`. -/
theorem test_eill_before_elen :
    after (fun t => busRead 0x04 t.regs) (execute 0x000003f2 (given full)) = some 0x00000439 := by decide

/-! ### The bus -/

/-- V-BUS-1, V-BUS-2: lane order and the kept bytes. -/
theorem test_write_word_2_of_a :
    after (fun t => t.regs.a) (step (given { Regs.reset with a := 0x0102030405060708090a0b0c0d0e0f10 }
      [wr 0x18 0xffffffff])) = some 0x0102030405060708ffffffff0d0e0f10 := by decide

/-- V-BUS-3: word 1 of R. -/
theorem test_read_word_1_of_r :
    after (fun t => t.response) (step (given { Regs.reset with r := 0x020406080a0c0e11fffffffe1a1c1e20 }
      [rd 0x34])) = some (some (.data 0x0a0c0e11)) := by decide

/-- V-BUS-4: a write to R is ignored. -/
theorem test_write_to_r_ignored :
    after (fun t => (t.regs, t.response)) (step (given full [wr 0x30 0])) = some (full, some .written) := by decide

/-- V-BUS-5. -/
theorem test_status_of_open_chain :
    busRead 0x04 { chain 126 0 0 with eq := true, estky := true } = 0x00007e38 := by decide

/-- V-BUS-6. -/
theorem test_status_after_abort :
    after (fun t => busRead 0x04 t.regs) (exec .s2vAbsorb (given (chain 126 1 0))) = some 0x0000000c := by decide

/-- V-BUS-7: a 16-bit write, and a 32-bit access at 0x12. -/
theorem test_refused_accesses :
    faultOf (step (given full [.access (.write .w16 0x10 0)])) = some .subWordAccess ∧
      faultOf (step (given full [.access (.read .w32 0x12)])) = some .misalignedAccess := by decide

/-- 70_reset_and_hazards.md R150, R151. -/
theorem test_reset_from_full :
    after (fun t => (t.regs, t.inReset)) (step (given full [.assertReset])) = some (Regs.reset, true) := by decide

/-! ### Witnesses: states and operands that meet the hypotheses of each obligation, for each clause and at its boundary values -/

theorem witness_ResetPutsEveryRegisterToZero :
    (given full [.assertReset]).pending = .assertReset :: [] ∧ (given full).regs ≠ Regs.reset := by decide

theorem witness_ResetHoldsCoreUntilReleased :
    (∃ s : State, s.inReset = true ∧ s.pending = .access (.read .w32 0x04) :: []) ∧
    (∃ s : State, s.inReset = true ∧ s.pending = .releaseReset :: []) ∧
    (∃ s : State, s.inReset = false ∧ s.pending = .assertReset :: []) :=
  ⟨⟨{ given Regs.reset [rd 0x04] with inReset := true }, rfl, rfl⟩,
    ⟨{ given Regs.reset [.releaseReset] with inReset := true }, rfl, rfl⟩, ⟨given full [.assertReset], rfl, rfl⟩⟩

/-- The step is the 126th absorb, which reaches the bound of the invariant. -/
theorem witness_InvariantKeptByEveryStep :
    ∃ s t : State, s.wf ∧ step s = .next t ∧ t.regs.hcnt = 126 :=
  ⟨given (chain 125 1 0) [cmd 4], _, by decide, rfl, by decide⟩

theorem witness_DecodeOfEncodeIsIdentity :
    (Instr.pad 0).wf = true ∧ (Instr.pad 15).wf = true ∧ (Instr.s2vPadend 15).wf = true ∧ Instr.zero.wf = true := by
  decide

theorem witness_EncodeOfDecodeIsIdentity :
    decode 0x000000F6 = .ok (.s2vPadend 15) ∧ decode 0x00000000 = .ok .nop := ⟨rfl, rfl⟩

/-- The smallest and largest word of each way to fail, and of the legal ones. -/
theorem witness_IllegalWordsFailWithEillOrElen :
    (rsvField 0x00000200 ≠ 0 ∧ rsvField 0x80000000 ≠ 0) ∧
    (0xA ≤ (opField 0x0000000A).toNat ∧ 0xA ≤ (opField 0x0000000F).toNat) ∧
    (opField 0x00000011 ≠ 0x2 ∧ opField 0x00000011 ≠ 0x6 ∧ lenField 0x00000011 ≠ 0) ∧
    (rsvField 0x00000102 = 0 ∧ opField 0x00000102 = 0x2 ∧ (lenField 0x00000102).toNat = 16) ∧
    (rsvField 0x000001F6 = 0 ∧ opField 0x000001F6 = 0x6 ∧ (lenField 0x000001F6).toNat = 31) ∧
    (rsvField 0x00000009 = 0 ∧ (opField 0x00000009).toNat = 9 ∧ lenField 0x00000009 = 0) ∧
    (rsvField 0x000000F2 = 0 ∧ opField 0x000000F2 = 0x2 ∧ (lenField 0x000000F2).toNat = 15) := by decide

theorem witness_ListedCommandWordsDecode :
    (0x80000001 : Word) ∈ [0x0000000A, 0x0000000B, 0x0000000C, 0x0000000D, 0x0000000E, 0x0000000F, 0x00000011,
      0x00000200, 0x80000001] ∧ (0x000001F6 : Word) ∈ [0x00000102, 0x000001F6] := by decide

theorem witness_StepRunsDecodedCommand :
    (given full [cmd 0x00000052]).commandNext 0x00000052 [] ∧ decode 0x00000052 = .ok (.pad 5) := ⟨⟨rfl, rfl⟩, rfl⟩

theorem witness_CommandWriteAlwaysCompletes :
    (given full [cmd 0x0000000F, rd 0x04]).commandNext 0x0000000F [rd 0x04] ∧
    (given full [cmd 0x00000001]).commandNext 0x00000001 [] := ⟨⟨rfl, rfl⟩, ⟨rfl, rfl⟩⟩

/-- An `EILL`, an `ELEN`, an `EPHASE` and an `EHCNT` failure; the last with an access after it. -/
theorem witness_FailureChangesOnlyErrorFields :
    (∃ t, execute 0x0000000A (given full) = .next t ∧ t.regs.err = .failed .eill) ∧
    (∃ t, execute 0x00000102 (given full) = .next t ∧ t.regs.err = .failed .elen) ∧
    (∃ t, execute 0x00000005 State.reset = .next t ∧ t.regs.err = .failed .ephase) ∧
    (∃ t, execute 0x00000004 (given (chain 126 1 0)) = .next t ∧ t.regs.err = .failed .ehcnt) ∧
    (∃ t, (given (chain 126 1 0) [cmd 4, rd 0x04]).commandNext 4 [rd 0x04] ∧
      step (given (chain 126 1 0) [cmd 4, rd 0x04]) = .next t ∧ t.regs.err = .failed .ehcnt ∧
      Access.admitted (.read .w32 0x04) = true) :=
  ⟨⟨_, rfl, rfl⟩, ⟨_, rfl, rfl⟩, ⟨_, rfl, rfl⟩, ⟨_, rfl, rfl⟩, ⟨_, ⟨rfl, rfl⟩, rfl, rfl, rfl⟩⟩

/-- Words with the opcode of each command without a length and a non-zero `LEN`, then a non-zero `RSV`. -/
theorem witness_illegal_fields :
    ∀ op : BitVec 4, op ≠ 0x2 → op ≠ 0x6 → (∃ w : Word, opField w = op ∧ lenField w ≠ 0) ∧
      (∃ w : Word, opField w = op ∧ lenField w = 0 ∧ rsvField w ≠ 0) :=
  fun op _ _ => ⟨⟨op.setWidth 32 ||| 0x10, by revert op; decide⟩, ⟨op.setWidth 32 ||| 0x200, by revert op; decide⟩⟩

/-- Words of PAD and S2V.PADEND with a non-zero `RSV`, and with `LEN` 16 and 31. -/
theorem witness_illegal_lengths :
    ∀ op : BitVec 4, (∃ w : Word, opField w = op ∧ rsvField w ≠ 0) ∧
      (∃ w : Word, opField w = op ∧ rsvField w = 0 ∧ (lenField w).toNat = 16) ∧
      (∃ w : Word, opField w = op ∧ rsvField w = 0 ∧ (lenField w).toNat = 31) :=
  fun op => ⟨⟨op.setWidth 32 ||| 0x200, by revert op; decide⟩, ⟨op.setWidth 32 ||| 0x100, by revert op; decide⟩,
    ⟨op.setWidth 32 ||| 0x1F0, by revert op; decide⟩⟩

theorem witness_DblDoublesAIntoR : ∃ w : Word, opField w = 0x1 ∧ lenField w ≠ 0 :=
  (witness_illegal_fields 0x1 (by decide) (by decide)).1

theorem witness_PadPadsAIntoR :
    ((0 : BitVec 5).toNat < 16 ∧ (15 : BitVec 5).toNat < 16 ∧ 16 ≤ (16 : BitVec 5).toNat ∧ 16 ≤ (31 : BitVec 5).toNat) ∧
    (∃ w : Word, opField w = 0x2 ∧ rsvField w = 0 ∧ (lenField w).toNat = 16) ∧ (14 : Fin 16).val < 15 :=
  ⟨by decide, (witness_illegal_lengths 0x2).2.1, by decide⟩

theorem witness_S2vInitOpensChain :
    (∃ w : Word, opField w = 0x3 ∧ lenField w ≠ 0) ∧
    ∃ s : State, s.regs.a = 0x0e04dfafc1efbf040140582859bf073a :=
  ⟨(witness_illegal_fields 0x3 (by decide) (by decide)).1,
    ⟨given { Regs.reset with a := 0x0e04dfafc1efbf040140582859bf073a }, rfl⟩⟩

/-- Counts 0 and 125 (absorbed), 126 (the limit), 127 (no run reaches it), and both closed phases. -/
theorem witness_S2vAbsorbUpdatesAccumulator :
    (∃ w : Word, opField w = 0x4 ∧ lenField w ≠ 0) ∧
    (∀ n ∈ [0, 125, 127], (given (chain n 1 0)).regs.phase = .chain ∧ (given (chain n 1 0)).regs.hcnt.toNat ≠ 126) ∧
    ((given (chain 125 1 0)).regs.phase = .chain ∧ (given (chain 125 1 0)).regs.hcnt.toNat = 125) ∧
    ((given (chain 126 1 0)).regs.phase = .chain ∧ (given (chain 126 1 0)).regs.hcnt.toNat = 126) ∧
    (State.reset.regs.phase ≠ .chain ∧ (given { Regs.reset with phase := .done }).regs.phase ≠ .chain) :=
  ⟨(witness_illegal_fields 0x4 (by decide) (by decide)).1, by decide, by decide, by decide, by decide⟩

theorem witness_AbsorbAtLimitAbortsChain :
    (given (chain 126 1 0)).regs.phase = .chain ∧ (given (chain 126 1 0)).regs.hcnt.toNat = 126 ∧
    (0 : BitVec 5).toNat < 16 ∧ (15 : BitVec 5).toNat < 16 := by decide

theorem witness_S2vXorendClosesChain :
    (∃ w : Word, opField w = 0x5 ∧ lenField w ≠ 0) ∧
    ((given (chain 0 1 0)).regs.phase = .chain ∧ (given (chain 0 1 0)).regs.a = 0) ∧ State.reset.regs.phase ≠ .chain :=
  ⟨(witness_illegal_fields 0x5 (by decide) (by decide)).1, by decide, by decide⟩

/-- Lengths 0, 15, 16 and 31, in and out of a chain, and an `A` that differs from byte 15 on only. -/
theorem witness_S2vPadendClosesChain :
    (∃ w : Word, opField w = 0x6 ∧ rsvField w = 0 ∧ (lenField w).toNat = 31) ∧
    ((0 : BitVec 5).toNat < 16 ∧ (15 : BitVec 5).toNat < 16 ∧ 16 ≤ (16 : BitVec 5).toNat ∧ 16 ≤ (31 : BitVec 5).toNat) ∧
    (given (chain 0 1 0)).regs.phase = .chain ∧ State.reset.regs.phase ≠ .chain ∧
    (∀ i : Fin 16, i.val < (15 : BitVec 5).toNat → byteOf 0x01 i = byteOf (given (chain 0 1 0)).regs.a i) :=
  ⟨(witness_illegal_lengths 0x6).2.2, by decide, by decide, by decide, by decide⟩

theorem witness_IvmaskMasksAIntoR :
    (∃ w : Word, opField w = 0x7 ∧ lenField w ≠ 0) ∧
    (0x7fffffff7fffffff : Block).getLsbD 63 = false ∧ (0x7fffffff7fffffff : Block).getLsbD 31 = false :=
  ⟨(witness_illegal_fields 0x7 (by decide) (by decide)).1, by decide, by decide⟩

theorem witness_CmpComparesAAndB : ∃ w : Word, opField w = 0x8 ∧ lenField w ≠ 0 :=
  (witness_illegal_fields 0x8 (by decide) (by decide)).1

theorem witness_NopClearsOnlyErr :
    (∃ w : Word, opField w = 0x0 ∧ lenField w = 0 ∧ rsvField w ≠ 0) ∧ State.reset.regs.phase ≠ .chain :=
  ⟨(witness_illegal_fields 0x0 (by decide) (by decide)).2, by decide⟩

theorem witness_ZeroErasesEveryRegister : ∃ w : Word, opField w = 0x9 ∧ lenField w ≠ 0 :=
  (witness_illegal_fields 0x9 (by decide) (by decide)).1

theorem witness_ChainStepsNeedOpenChain :
    (0 : BitVec 5).toNat < 16 ∧ (15 : BitVec 5).toNat < 16 ∧ State.reset.regs.phase ≠ .chain ∧
    (given full).regs.phase = .chain := by decide

/-- The interpretation of blocks as polynomials, the polynomial and the inverse exist as the hypotheses ask. -/
theorem witness_DblIsMultiplicationByX :
    ∃ (poly : Block → Polynomial (ZMod 2)) (m : Polynomial (ZMod 2)) (half : Block → Block),
      (∀ v, poly v = ∑ k ∈ Finset.range 128, if v.getLsbD k then Polynomial.X ^ k else 0) ∧
      m = Polynomial.X ^ 128 + Polynomial.X ^ 7 + Polynomial.X ^ 2 + Polynomial.X + 1 ∧
      (∀ v, half v = if v.getLsbD 0 then ((v ^^^ 0x87) >>> 1) ||| (1#128 <<< 127) else v >>> 1) :=
  ⟨_, _, _, fun _ => rfl, rfl, fun _ => rfl⟩

theorem witness_PadByBytesAndByValue :
    (0 < 16 ∧ 15 < 16) ∧ ((14 : Fin 16).val < 15 ∧ (15 : Fin 16).val = 15 ∧ 0 < (1 : Fin 16).val) ∧
    (∀ i : Fin 16, i.val < 15 → byteOf 0x01 i = byteOf 0x02 i) := by decide

/-- Two different blocks that pad alike: they agree before byte 15. -/
theorem witness_PadIsInjectiveOnShortMessages : pad 0x01 15 = pad 0x02 15 ∧ (15 : Nat) < 16 := by decide

theorem witness_IvmaskClearsTwoBits : (0 : Nat) < 8 ∧ (7 : Nat) < 8 ∧ (0 : Nat) < 32 ∧ (31 : Nat) < 32 := by decide

theorem witness_IvmaskLaws :
    ∃ u : Block, ivmask u = ivmask 0 ∧ u ≠ 0 ∧ (62 : Nat) ≠ 63 ∧ (62 : Nat) ≠ 31 :=
  ⟨0x80000000, by decide⟩

theorem witness_StatusHoldsItsFields : (chain 126 1 0).wf ∧ full.wf := by decide

/-- An aligned read of each kind of offset, the first and last of each range. -/
theorem witness_BusReadReturnsMappedWord :
    ∀ off ∈ ([0x00, 0x04, 0x08, 0x0C, 0x10, 0x1C, 0x20, 0x2C, 0x30, 0x3C, 0x40, 0xFC] : List (BitVec 8)),
      (given full [rd off]).inReset = false ∧ (given full [rd off]).pending = .access (.read .w32 off) :: [] ∧
      off.toNat % 4 = 0 := by decide

theorem witness_BusWriteChangesOnlyItsWord :
    (∀ k ∈ ([0, 3] : List (Fin 4)), (given full [wr (BitVec.ofNat 8 (0x10 + 4 * k.val)) 5]).pending =
      .access (.write .w32 (BitVec.ofNat 8 (0x10 + 4 * k.val)) 5) :: []) ∧
    (∀ k ∈ ([0, 3] : List (Fin 4)), (given full [wr (BitVec.ofNat 8 (0x20 + 4 * k.val)) 5]).pending =
      .access (.write .w32 (BitVec.ofNat 8 (0x20 + 4 * k.val)) 5) :: []) ∧ (given full).inReset = false := by decide

theorem witness_IgnoredWritesChangeNothing :
    (∀ off ∈ ([0x04, 0x30, 0x3C, 0x08, 0x0C, 0x40, 0xFC] : List (BitVec 8)),
      off.toNat % 4 = 0 ∧ (off.toNat = 0x04 ∨ (0x30 ≤ off.toNat ∧ off.toNat ≤ 0x3C) ∨
        off.toNat = 0x08 ∨ off.toNat = 0x0C ∨ 0x40 ≤ off.toNat) ∧
      (given full [wr off 5]).pending = .access (.write .w32 off 5) :: []) ∧
    (∀ off ∈ ([0x08, 0x0C, 0x40, 0xFC] : List (BitVec 8)),
      off.toNat % 4 = 0 ∧ (off.toNat = 0x08 ∨ off.toNat = 0x0C ∨ 0x40 ≤ off.toNat) ∧
      (given full [rd off]).pending = .access (.read .w32 off) :: []) := by decide

/-- Each width, read and written, at offset 0x00, and 32 bits at 0xFC, 0x01 and 0xFF. -/
theorem witness_OnlyAlignedWordAccessesComplete :
    (given full).inReset = false ∧
    (∀ width ∈ [Width.w8, .w16, .w32, .wide],
      (given full [.access (.read width 0)]).pending = .access (.read width 0) :: [] ∧
      (given full [.access (.write width 0 9)]).pending = .access (.write width 0 9) :: []) ∧
    ((0xFC : BitVec 8).toNat % 4 = 0 ∧ (0x01 : BitVec 8).toNat % 4 ≠ 0 ∧ (0xFF : BitVec 8).toNat % 4 ≠ 0) := by decide

theorem witness_SafeInputsNeverStop :
    safeInputs false [cmd 3, rd 0x04, .assertReset, .releaseReset, wr 0xFC 0] = true ∧ safeInputs false [] = true := by
  decide

theorem witness_WindowDecodeInvertsBase :
    windowOffset (busAddress 0x00) = some 0x00 ∧ windowOffset (busAddress 0xFF) = some 0xFF := by
  constructor <;> simp [windowOffset, busAddress]

/-- A CMP that changes `EQ`, a ZERO, and a reset. -/
theorem witness_EqIsWrittenOnlyByCmpZeroAndReset :
    (∃ t, step (given full [cmd 8]) = .next t ∧ t.regs.eq ≠ full.eq ∧ (given full [cmd 8]).runsNext .cmp) ∧
    (∃ t, step (given full [cmd 9]) = .next t ∧ t.regs.eq ≠ full.eq ∧ (given full [cmd 9]).runsNext .zero) ∧
    (∃ t, step (given full [.assertReset]) = .next t ∧ (given full [.assertReset]).resetsNext) ∧
    (∃ t, exec .dbl (given full) = .next t) :=
  ⟨⟨_, rfl, by decide, ⟨8, [], ⟨rfl, rfl⟩, rfl⟩⟩, ⟨_, rfl, by decide, ⟨9, [], ⟨rfl, rfl⟩, rfl⟩⟩,
    ⟨_, rfl, ⟨[], rfl⟩⟩, ⟨_, rfl⟩⟩

/-- A failing command, a rejected word, a ZERO that clears the sticky flag, and a command that changes `ERR`. -/
theorem witness_ErrAndStickyFlagFollowCommands :
    (∃ t, exec .s2vXorend State.reset = .next t ∧ t.regs.err ≠ .ok) ∧
    (∃ t, exec .dbl State.reset = .next t ∧ t.regs.err = .ok) ∧
    (∃ t, decode 0x0000000A = .error .reservedOpcode ∧ execute 0x0000000A State.reset = .next t) ∧
    (∃ t, step (given { full with estky := true } [cmd 9]) = .next t ∧ t.regs.estky = false) ∧
    (∃ t, step (given full [cmd 0x0000000A]) = .next t ∧ t.regs.err ≠ full.err) :=
  ⟨⟨_, rfl, by decide⟩, ⟨_, rfl, rfl⟩, ⟨_, rfl, rfl⟩, ⟨_, rfl, rfl⟩, ⟨_, rfl, by decide⟩⟩

/-- Each transition: into CHAIN, into DONE, the abort into IDLE, and a reset. -/
theorem witness_PhaseChangesOnlyByItsTransitions :
    (∃ t, step (given Regs.reset [cmd 3]) = .next t ∧ t.regs.phase = .chain) ∧
    (∃ t, step (given full [cmd 5]) = .next t ∧ t.regs.phase = .done) ∧
    (∃ t, step (given full [cmd 0xF6]) = .next t ∧ t.regs.phase = .done) ∧
    (∃ t, step (given (chain 126 1 0) [cmd 4]) = .next t ∧ t.regs.phase = .idle) ∧
    (∃ t, step (given full [.assertReset]) = .next t ∧ (given full [.assertReset]).resetsNext) ∧
    ((given full).regs.phase = .chain ∧ (0 : BitVec 5).toNat < 16 ∧ (15 : BitVec 5).toNat < 16) :=
  ⟨⟨_, rfl, rfl⟩, ⟨_, rfl, rfl⟩, ⟨_, rfl, rfl⟩, ⟨_, rfl, rfl⟩, ⟨_, rfl, ⟨[], rfl⟩⟩, by decide⟩

/-- A step neither a reset nor a ZERO that changes `A`, `B`, `R` and `ERR`, `D` and `HCNT`, `PHASE`, `EQ`, and `ESTKY`. -/
theorem witness_RegistersChangeOnlyByTheirWriters :
    (∃ t, step (given full [wr 0x1C 5]) = .next t ∧ t.regs.a ≠ full.a) ∧
    (∃ t, step (given full [wr 0x20 5]) = .next t ∧ t.regs.b ≠ full.b) ∧
    (∃ t, step (given { full with err := .failed .eill } [cmd 1]) = .next t ∧ t.regs.r ≠ full.r ∧ t.regs.err = .ok) ∧
    (∃ t, step (given full [cmd 4]) = .next t ∧ t.regs.d ≠ full.d ∧ t.regs.hcnt ≠ full.hcnt) ∧
    (∃ t, step (given full [cmd 5]) = .next t ∧ t.regs.phase ≠ full.phase) ∧
    (∃ t, step (given full [cmd 8]) = .next t ∧ t.regs.eq ≠ full.eq) ∧
    (∃ t, step (given full [cmd 0xA]) = .next t ∧ t.regs.estky ≠ full.estky ∧
      ¬ (given full [cmd 0xA]).resetsNext ∧ ¬ (given full [cmd 0xA]).runsNext .zero) :=
  ⟨⟨_, rfl, by decide⟩, ⟨_, rfl, by decide⟩, ⟨_, rfl, by decide, rfl⟩, ⟨_, rfl, by decide, by decide⟩,
    ⟨_, rfl, by decide⟩, ⟨_, rfl, by decide⟩,
    ⟨_, rfl, by decide, fun ⟨_, h⟩ => by simp [given, cmd] at h,
      fun ⟨w, _, ⟨_, h⟩, hd⟩ => by
        obtain rfl : 0xA = w := by simp only [given, cmd, List.cons.injEq, Input.access.injEq, Access.write.injEq] at h; exact h.1.2.2
        cases hd⟩⟩

theorem witness_OnlyCmpReadsB : ∃ t, Instr.zero ≠ .cmp ∧ Instr.dbl ≠ .cmp ∧ exec .dbl (given full) = .next t :=
  ⟨_, by decide, by decide, rfl⟩

theorem witness_AccumulatorIsHiddenFromTheBus :
    (∃ t, (given full [rd 0x30]).pending = .access (.read .w32 0x30) :: [] ∧ step (given full [rd 0x30]) = .next t) ∧
    (State.reset.wf ∧ State.reset.regs.phase ≠ .chain) ∧ ((given (chain 1 3 0)).regs.phase = .chain ∧ (given (chain 1 3 0)).regs.a = 0) :=
  ⟨⟨_, rfl, rfl⟩, by decide, by decide⟩

/-- An INIT, a ZERO, a reset, the 126th absorb and the 127th. -/
theorem witness_HcntCountsAbsorbs :
    (∃ t, (given full [cmd 3]).wf ∧ step (given full [cmd 3]) = .next t ∧ (given full [cmd 3]).runsNext .s2vInit) ∧
    (∃ t, step (given full [cmd 9]) = .next t ∧ (given full [cmd 9]).runsNext .zero) ∧
    (∃ t, step (given full [.assertReset]) = .next t ∧ (given full [.assertReset]).resetsNext) ∧
    (∃ t, (given (chain 125 1 0) [cmd 4]).wf ∧ step (given (chain 125 1 0) [cmd 4]) = .next t ∧
      (given (chain 125 1 0) [cmd 4]).runsNext .s2vAbsorb ∧ t.regs.err = .ok) ∧
    (∃ t, (given (chain 126 1 0) [cmd 4]).wf ∧ step (given (chain 126 1 0) [cmd 4]) = .next t ∧
      t.regs.err = .failed .ehcnt) :=
  ⟨⟨_, by decide, rfl, ⟨3, [], ⟨rfl, rfl⟩, rfl⟩⟩, ⟨_, rfl, ⟨9, [], ⟨rfl, rfl⟩, rfl⟩⟩, ⟨_, rfl, ⟨[], rfl⟩⟩,
    ⟨_, by decide, rfl, ⟨4, [], ⟨rfl, rfl⟩, rfl⟩, rfl⟩, ⟨_, by decide, rfl, rfl⟩⟩

theorem witness_ChainAdmitsExactlyHmaxAbsorbs :
    State.reset.inReset = false ∧ ∀ n ∈ [0, 126, 127], n ≤ 127 := by decide

theorem witness_PseudoInstructionsLoadAndRead : (given full).inReset = false := rfl

/-- No headers and 126 of them, with messages of 16, 0 and 15 bytes. -/
theorem witness_HostS2vComputesReference :
    (given full).inReset = false ∧ ([] : List (List Byte)).length ≤ 126 ∧
    (List.replicate 126 ([] : List Byte)).length ≤ 126 ∧
    16 ≤ (List.replicate 16 (0 : Byte)).length ∧ ([] : List Byte).length < 16 ∧
    (List.replicate 15 (0 : Byte)).length < 16 := by
  simp [given]

theorem witness_TooManyHeadersIsInvalidInput :
    (given full).inReset = false ∧ 126 < (List.replicate 127 ([] : List Byte)).length := by simp [given]

theorem witness_SealEmitsTagAndCiphertext :
    (given full).inReset = false ∧ (List.replicate 126 ([] : List Byte)).length ≤ 126 := by simp [given]

/-- Inputs of 0 and 15 bytes, a tag that matches and one that does not. -/
theorem witness_OpenReleasesPlaintextOnlyOnMatch :
    ((given full).inReset = false ∧ ([] : List (List Byte)).length ≤ 126) ∧
    (([] : List Byte).length < 16 ∧ (List.replicate 15 (0 : Byte)).length < 16) ∧
    (∃ (mac : List Byte → Block) (ctr : Block → List Byte → List Byte) (iv : Block),
      s2vRef mac [] (ctr (ivmask iv) []) = iv) ∧
    (∃ (mac : List Byte → Block) (ctr : Block → List Byte → List Byte) (iv : Block),
      s2vRef mac [] (ctr (ivmask iv) []) ≠ iv) :=
  ⟨by decide, by decide, ⟨fun _ => 0, fun _ m => m, 0, rfl⟩, ⟨fun _ => 0, fun _ m => m, 1, by decide⟩⟩

end Sys2Proof.Tests
end

/-! The platform's address decode and the addresses of the window (00_scope.md R9; 20_memory.md R40). -/

namespace Sys2Proof.Machine

theorem base_mod_window : Config.base % 256 = 0 := Nat.mul_mod_right 256 Config.baseIndex

/-- Decode and address are inverse on the window, at whatever BASE the platform sets. -/
theorem windowOffset_eq_some_iff (addr : Nat) (off : BitVec 8) :
    windowOffset addr = some off ↔ addr = busAddress off := by
  have hoff : off.toNat < 256 := off.isLt
  unfold windowOffset busAddress
  split
  case isTrue hin =>
    obtain ⟨hlow, hhigh⟩ := hin
    have hwrap : (addr - Config.base) % 2 ^ 8 = addr - Config.base := Nat.mod_eq_of_lt (by omega)
    rw [Option.some_inj, ← BitVec.toNat_inj, BitVec.toNat_ofNat, hwrap]
    omega
  case isFalse hout =>
    constructor
    · intro h
      cases h
    · intro haddr
      exact absurd ⟨by omega, by omega⟩ hout

/-- Settles O39: the three parts follow from `base_mod_window` and the two directions of `windowOffset_eq_some_iff`. -/
theorem windowDecodeInvertsBase : Obligations.WindowDecodeInvertsBase :=
  ⟨base_mod_window, fun off => (windowOffset_eq_some_iff (busAddress off) off).2 rfl,
    fun addr off => (windowOffset_eq_some_iff addr off).1⟩

end Sys2Proof.Machine

/-! What a command can do, in one equation: the first check that fails, else its effect (30_encoding.md R63; 60_exceptions.md R132, R133). -/

namespace Sys2Proof.Machine

/-- The code of the first check a command fails, if any: `LEN` before `PHASE` before `HCNT` (60_exceptions.md R133). -/
def failedCheck (i : Instr) (c : Regs) : Option Failure :=
  match i with
  | .pad n => if n.toNat < 16 then none else some .elen
  | .s2vAbsorb =>
    if c.phase ≠ .chain then some .ephase else if c.hcnt.toNat = Config.hmax then some .ehcnt else none
  | .s2vXorend => if c.phase ≠ .chain then some .ephase else none
  | .s2vPadend n =>
    if 16 ≤ n.toNat then some .elen else if c.phase ≠ .chain then some .ephase else none
  | .nop | .dbl | .s2vInit | .ivmask | .cmp | .zero => none

/-- The effect of a command that passes its checks. -/
def commandEffect (i : Instr) (s : State) : State :=
  match i with
  | .nop => succeed s
  | .dbl => (succeed s).setR (dbl s.regs.a)
  | .pad n => (succeed s).setR (pad s.regs.a n.toNat)
  | .s2vInit => (((succeed s).setD s.regs.a).setHcnt 0).setPhase .chain
  | .s2vAbsorb => absorb s
  | .s2vXorend => closeChain s (s.regs.a ^^^ s.regs.d)
  | .s2vPadend n => closeChain s (pad s.regs.a n.toNat ^^^ dbl s.regs.d)
  | .ivmask => (succeed s).setR (ivmask s.regs.a)
  | .cmp => (succeed s).setEq (ctEq s.regs.a s.regs.b)
  | .zero => { s with regs := Regs.reset }

/-- The state after a command. -/
def commandOutcome (i : Instr) (s : State) : State :=
  match failedCheck i s.regs with
  | some f => fail f s
  | none => commandEffect i s

variable {s t : State} {i : Instr} {f : Failure}

theorem commandOutcome_of_fails (h : failedCheck i s.regs = some f) : commandOutcome i s = fail f s := by
  simp only [commandOutcome, h]

theorem commandOutcome_of_passes (h : failedCheck i s.regs = none) : commandOutcome i s = commandEffect i s := by
  simp only [commandOutcome, h]

theorem commandOutcome_cases (i : Instr) (s : State) :
    (∃ f, failedCheck i s.regs = some f ∧ commandOutcome i s = fail f s) ∨
      (failedCheck i s.regs = none ∧ commandOutcome i s = commandEffect i s) := by
  cases h : failedCheck i s.regs with
  | some f => exact .inl ⟨f, rfl, commandOutcome_of_fails h⟩
  | none => exact .inr ⟨rfl, commandOutcome_of_passes h⟩

/-- Every command answers a next state, from every state. -/
theorem exec_eq_commandOutcome (i : Instr) (s : State) : exec i s = .next (commandOutcome i s) := by
  cases i
  case nop => rfl
  case dbl => rfl
  case pad n => simp only [exec, execPad, checkLength, commandOutcome, failedCheck]; split <;> rfl
  case s2vInit => rfl
  case s2vAbsorb =>
    simp only [exec, execS2vAbsorb, checkPhase, commandOutcome, failedCheck, ne_eq, ite_not]
    split
    · split <;> rfl
    · rfl
  case s2vXorend =>
    simp only [exec, execS2vXorend, checkPhase, commandOutcome, failedCheck, ne_eq, ite_not]
    split <;> rfl
  case s2vPadend n =>
    simp only [exec, execS2vPadend, checkLength, checkPhase, commandOutcome, failedCheck, ne_eq, ite_not,
      ← Nat.not_lt (a := n.toNat)]
    split
    · split <;> rfl
    · rfl
  case ivmask => rfl
  case cmp => rfl
  case zero => rfl

theorem eq_commandOutcome_of_exec (h : exec i s = .next t) : t = commandOutcome i s := by
  rw [exec_eq_commandOutcome] at h
  cases h
  rfl

/-! ### Which checks can fail -/

/-- The checks read `PHASE` and `HCNT` alone. -/
theorem failedCheck_congr {c c' : Regs} (hphase : c'.phase = c.phase) (hhcnt : c'.hcnt = c.hcnt) :
    failedCheck i c' = failedCheck i c := by
  cases i <;> simp only [failedCheck, hphase, hhcnt]

theorem failedCheck_absorb_of_chain {c : Regs} (hphase : c.phase = .chain) :
    failedCheck .s2vAbsorb c = if c.hcnt.toNat = 126 then some .ehcnt else none := by
  rw [failedCheck, if_neg (not_not.2 hphase)]
  rfl

theorem failedCheck_xorend_of_chain {c : Regs} (hphase : c.phase = .chain) : failedCheck .s2vXorend c = none := by
  simp [failedCheck, hphase]

theorem failedCheck_padend_of_chain {c : Regs} {n : BitVec 5} (hn : n.toNat < 16) (hphase : c.phase = .chain) :
    failedCheck (.s2vPadend n) c = none := by
  simp [failedCheck, hphase, hn]

/-- `EHCNT` is the absorb at the limit, in an open chain (41_s2v.md R97). -/
theorem failedCheck_ehcnt {c : Regs} (h : failedCheck i c = some .ehcnt) :
    i = .s2vAbsorb ∧ c.phase = .chain ∧ c.hcnt.toNat = 126 := by
  cases i
  case s2vAbsorb =>
    by_cases hphase : c.phase = .chain
    · rw [failedCheck_absorb_of_chain hphase] at h
      exact ⟨rfl, hphase, by simpa using h⟩
    · simp [failedCheck, hphase] at h
  case s2vPadend n =>
    simp only [failedCheck] at h
    split_ifs at h <;> cases h
  all_goals simp [failedCheck] at h

/-- An absorb that passes its checks finds an open chain below the limit (41_s2v.md R91, R93). -/
theorem absorb_passes {c : Regs} (h : failedCheck .s2vAbsorb c = none) :
    c.phase = .chain ∧ c.hcnt.toNat ≠ 126 := by
  by_cases hphase : c.phase = .chain
  · rw [failedCheck_absorb_of_chain hphase] at h
    exact ⟨hphase, by simpa using h⟩
  · simp [failedCheck, hphase] at h

theorem xorend_passes {c : Regs} (h : failedCheck .s2vXorend c = none) : c.phase = .chain := by
  simpa [failedCheck] using h

theorem padend_passes {c : Regs} {n : BitVec 5} (h : failedCheck (.s2vPadend n) c = none) : c.phase = .chain := by
  simp only [failedCheck] at h
  split_ifs at h with hlength hclosed
  exact not_not.1 hclosed

/-! ### The effect of each command on the registers -/

section Effects

variable (s : State) (n : BitVec 5)

@[simp] theorem commandEffect_nop_regs : (commandEffect .nop s).regs = { s.regs with err := .ok } := rfl

@[simp] theorem commandEffect_dbl_regs :
    (commandEffect .dbl s).regs = { s.regs with r := dbl s.regs.a, err := .ok } := rfl

@[simp] theorem commandEffect_pad_regs :
    (commandEffect (.pad n) s).regs = { s.regs with r := pad s.regs.a n.toNat, err := .ok } := rfl

@[simp] theorem commandEffect_init_regs :
    (commandEffect .s2vInit s).regs = { s.regs with d := s.regs.a, hcnt := 0, phase := .chain, err := .ok } := rfl

@[simp] theorem commandEffect_absorb_regs :
    (commandEffect .s2vAbsorb s).regs =
      { s.regs with d := dbl s.regs.d ^^^ s.regs.a, hcnt := s.regs.hcnt + 1, err := .ok } := rfl

@[simp] theorem commandEffect_xorend_regs :
    (commandEffect .s2vXorend s).regs =
      { s.regs with r := s.regs.a ^^^ s.regs.d, d := 0, phase := .done, err := .ok } := rfl

@[simp] theorem commandEffect_padend_regs :
    (commandEffect (.s2vPadend n) s).regs =
      { s.regs with r := pad s.regs.a n.toNat ^^^ dbl s.regs.d, d := 0, phase := .done, err := .ok } := rfl

@[simp] theorem commandEffect_ivmask_regs :
    (commandEffect .ivmask s).regs = { s.regs with r := ivmask s.regs.a, err := .ok } := rfl

@[simp] theorem commandEffect_cmp_regs :
    (commandEffect .cmp s).regs = { s.regs with eq := ctEq s.regs.a s.regs.b, err := .ok } := rfl

@[simp] theorem commandEffect_zero_regs : (commandEffect .zero s).regs = Regs.reset := rfl

end Effects

@[simp] theorem commandEffect_err (i : Instr) (s : State) : (commandEffect i s).regs.err = .ok := by
  cases i <;> rfl

/-! ### What a failure keeps -/

/-- A failure other than `EHCNT` keeps every register but the two error fields (60_exceptions.md R132). -/
theorem fail_regs_of_ne_ehcnt (hf : f ≠ .ehcnt) :
    (fail f s).regs = { s.regs with err := .failed f, estky := true } := by
  rw [fail_eq_of_ne_ehcnt hf]

/-! ### Two runs of one command -/

/-- Two states of which a command's checks say the same have related outcomes if both failures and effects are related. -/
theorem commandOutcome_rel {P : State → State → Prop} {s u : State}
    (hcheck : failedCheck i u.regs = failedCheck i s.regs)
    (hfail : ∀ f, failedCheck i s.regs = some f → P (fail f s) (fail f u))
    (heffect : P (commandEffect i s) (commandEffect i u)) : P (commandOutcome i s) (commandOutcome i u) := by
  cases h : failedCheck i s.regs with
  | some f =>
    rw [commandOutcome_of_fails h, commandOutcome_of_fails (hcheck.trans h)]
    exact hfail f h
  | none =>
    rw [commandOutcome_of_passes h, commandOutcome_of_passes (hcheck.trans h)]
    exact heffect

theorem fail_regs_congr {s u : State} (h : u.regs = s.regs) : (fail f s).regs = (fail f u).regs := by
  cases f <;> simp [fail, abortChain, h]

/-- The registers after a command depend on the registers before it alone (10_state.md R20). -/
theorem commandOutcome_regs_congr {s u : State} (h : u.regs = s.regs) :
    (commandOutcome i s).regs = (commandOutcome i u).regs :=
  commandOutcome_rel (P := fun x y => x.regs = y.regs) (by rw [h]) (fun _ _ => fail_regs_congr h)
    (by cases i <;> simp [h])

/-! ### The writers of each register among the commands (10_state.md R21) -/

theorem commandOutcome_a (hi : i ≠ .zero) : (commandOutcome i s).regs.a = s.regs.a := by
  rcases commandOutcome_cases i s with ⟨f, -, e⟩ | ⟨-, e⟩ <;> rw [e]
  · exact fail_a f
  · cases i <;> simp_all

theorem commandOutcome_b (hi : i ≠ .zero) : (commandOutcome i s).regs.b = s.regs.b := by
  rcases commandOutcome_cases i s with ⟨f, -, e⟩ | ⟨-, e⟩ <;> rw [e]
  · exact fail_b f
  · cases i <;> simp_all

theorem commandOutcome_r_writers (h : (commandOutcome i s).regs.r ≠ s.regs.r) :
    i = .zero ∨ i = .dbl ∨ (∃ n, i = .pad n) ∨ i = .s2vXorend ∨ (∃ n, i = .s2vPadend n) ∨ i = .ivmask := by
  rcases commandOutcome_cases i s with ⟨f, -, e⟩ | ⟨-, e⟩ <;> rw [e] at h
  · exact absurd (fail_r f) h
  · cases i <;> simp_all

theorem commandOutcome_d_writers (h : (commandOutcome i s).regs.d ≠ s.regs.d) :
    i = .zero ∨ i = .s2vInit ∨ i = .s2vAbsorb ∨ i = .s2vXorend ∨ ∃ n, i = .s2vPadend n := by
  rcases commandOutcome_cases i s with ⟨f, hf, e⟩ | ⟨-, e⟩ <;> rw [e] at h
  · by_cases hne : f = .ehcnt
    · exact .inr (.inr (.inl (failedCheck_ehcnt (hne ▸ hf)).1))
    · exact absurd (by rw [fail_regs_of_ne_ehcnt hne]) h
  · cases i <;> simp_all

theorem commandOutcome_hcnt_writers (h : (commandOutcome i s).regs.hcnt ≠ s.regs.hcnt) :
    i = .s2vInit ∨ i = .zero ∨ i = .s2vAbsorb := by
  rcases commandOutcome_cases i s with ⟨f, hf, e⟩ | ⟨-, e⟩ <;> rw [e] at h
  · by_cases hne : f = .ehcnt
    · exact .inr (.inr (failedCheck_ehcnt (hne ▸ hf)).1)
    · exact absurd (by rw [fail_regs_of_ne_ehcnt hne]) h
  · cases i <;> simp_all

/-- The transitions of `PHASE` (10_state.md R30). -/
theorem commandOutcome_phase_transitions (h : (commandOutcome i s).regs.phase ≠ s.regs.phase) :
    (i = .s2vInit ∧ (commandOutcome i s).regs.phase = .chain) ∨
      (s.regs.phase = .chain ∧ (commandOutcome i s).regs.phase = .done ∧
        (i = .s2vXorend ∨ ∃ n, i = .s2vPadend n)) ∨
      (s.regs.phase = .chain ∧ (commandOutcome i s).regs.phase = .idle ∧ i = .s2vAbsorb ∧
        (commandOutcome i s).regs.err = .failed .ehcnt) ∨
      ((commandOutcome i s).regs.phase = .idle ∧ i = .zero) := by
  rcases commandOutcome_cases i s with ⟨f, hf, e⟩ | ⟨hpass, e⟩ <;> rw [e] at h ⊢
  · by_cases hne : f = .ehcnt
    · subst hne
      obtain ⟨hi, hphase, -⟩ := failedCheck_ehcnt hf
      exact .inr (.inr (.inl ⟨hphase, rfl, hi, rfl⟩))
    · exact absurd (by rw [fail_regs_of_ne_ehcnt hne]) h
  · cases i
    case s2vInit => exact .inl ⟨rfl, rfl⟩
    case s2vXorend => exact .inr (.inl ⟨xorend_passes hpass, rfl, .inl rfl⟩)
    case s2vPadend n => exact .inr (.inl ⟨padend_passes hpass, rfl, .inr ⟨n, rfl⟩⟩)
    case zero => exact .inr (.inr (.inr ⟨rfl, rfl⟩))
    all_goals exact absurd rfl h

theorem commandOutcome_eq_writers (h : (commandOutcome i s).regs.eq ≠ s.regs.eq) : i = .cmp ∨ i = .zero := by
  rcases commandOutcome_cases i s with ⟨f, -, e⟩ | ⟨-, e⟩ <;> rw [e] at h
  · exact absurd (fail_eq f) h
  · cases i <;> simp_all

/-- A command that reports a failure sets `ESTKY` (10_state.md R27). -/
theorem commandOutcome_estky_of_err (h : (commandOutcome i s).regs.err ≠ .ok) :
    (commandOutcome i s).regs.estky = true := by
  rcases commandOutcome_cases i s with ⟨f, -, e⟩ | ⟨-, e⟩ <;> rw [e] at h ⊢
  · exact fail_estky f
  · exact absurd (commandEffect_err i s) h

/-- A command that succeeds keeps `ESTKY`, ZERO apart (10_state.md R27). -/
theorem commandOutcome_estky_of_ok (h : (commandOutcome i s).regs.err = .ok) (hi : i ≠ .zero) :
    (commandOutcome i s).regs.estky = s.regs.estky := by
  rcases commandOutcome_cases i s with ⟨f, -, e⟩ | ⟨-, e⟩ <;> rw [e] at h ⊢
  · simp at h
  · cases i <;> simp_all

end Sys2Proof.Machine

/-! What a step can do to CORE's registers, and which input causes it (10_state.md R21; 20_memory.md R44 to R50). -/

namespace Sys2Proof.Machine

variable {s t : State} {i : Instr}

/-- The registers `c` are those after a step from `s`: one constructor for each cause. -/
inductive StepCause (s : State) (c : Regs) : Prop
  | kept (regs : c = s.regs)
  | reset (cause : s.resetsNext) (regs : c = Regs.reset)
  | writeA (k : Fin 4) (v : Block) (cause : s.writesNext (BitVec.ofNat 8 (0x10 + 4 * k.val)))
      (regs : c = { s.regs with a := v })
  | writeB (k : Fin 4) (v : Block) (cause : s.writesNext (BitVec.ofNat 8 (0x20 + 4 * k.val)))
      (regs : c = { s.regs with b := v })
  | rejected (e : Reject) (cause : s.writesNext 0x00)
      (regs : c = { s.regs with err := .failed (failureOf e), estky := true })
  | command (i : Instr) (cause : s.runsNext i) (regs : c = (commandOutcome i s).regs)

theorem eq_ofNat_of_toNat {off : BitVec 8} {n : Nat} (h : off.toNat = n) : off = BitVec.ofNat 8 n := by
  rw [← h, BitVec.ofNat_toNat, BitVec.setWidth_eq]

theorem execute_rejected {w : Word} {e : Reject} (hw : decode w = .error e) (h : execute w s = .next t) :
    t = s.withError (failureOf e) := by
  simp only [execute, hw, Host.Outcome.next.injEq] at h
  rw [← h, fail_eq_of_ne_ehcnt (failureOf_ne_ehcnt e)]
  rfl

theorem execute_decoded {w : Word} (hw : decode w = .ok i) : execute w s = exec i s := by
  simp only [execute, hw]

/-- Every step has one of the causes. -/
theorem step_cause (h : step s = .next t) : StepCause s t.regs := by
  rcases step_cases h with ⟨-, rfl⟩ | ⟨rest, hp, rfl⟩ | ⟨rest, -, rfl⟩ | ⟨rest, off, -, -, -, rfl⟩ |
    ⟨rest, off, w, hr, hp, -, hw⟩
  · exact .kept rfl
  · exact .reset ⟨rest, hp⟩ rfl
  · exact .kept rfl
  · exact .kept rfl
  · have hwrites : s.writesNext off := ⟨hr, w, rest, hp⟩
    rcases busWrite_cases off w (s.afterWrite rest) with ⟨hoff, e⟩ | ⟨k, hoff, e⟩ | ⟨k, hoff, e⟩ | ⟨-, e⟩
    · obtain rfl : off = 0x00 := eq_ofNat_of_toNat hoff
      have hex : execute w (s.afterWrite rest) = .next t := e.symm.trans hw
      cases hd : decode w with
      | error r => exact .rejected r hwrites (by rw [execute_rejected hd hex]; rfl)
      | ok i =>
        rw [execute_decoded hd] at hex
        refine .command i ⟨w, rest, ⟨hr, hp⟩, hd⟩ ?_
        rw [eq_commandOutcome_of_exec hex]
        exact commandOutcome_regs_congr rfl
    · cases e.symm.trans hw
      exact .writeA k _ (eq_ofNat_of_toNat hoff ▸ hwrites) rfl
    · cases e.symm.trans hw
      exact .writeB k _ (eq_ofNat_of_toNat hoff ▸ hwrites) rfl
    · cases e.symm.trans hw
      exact .kept rfl

theorem State.runsNext.writesNext (h : s.runsNext i) : s.writesNext 0x00 := by
  obtain ⟨w, rest, ⟨hr, hp⟩, -⟩ := h
  exact ⟨hr, w, rest, hp⟩

/-- A write of any word to CMD is executed by the step (20_memory.md R44). -/
theorem step_of_commandNext {w : Word} {rest : List Input} (h : s.commandNext w rest) :
    step s = execute w (s.afterWrite rest) := by
  obtain ⟨hr, hp⟩ := h
  simp only [step, serveNext, hp, serveInput]
  rw [if_neg (by simp [hr])]
  rfl

theorem step_of_resetsNext (hr : s.resetsNext) (h : step s = .next t) : t.regs = Regs.reset := by
  obtain ⟨rest, hp⟩ := hr
  simp only [step, serveNext, hp, serveInput, Host.Outcome.next.injEq] at h
  rw [← h]

/-- The registers after the step that runs a command. -/
theorem step_of_runsNext (hi : s.runsNext i) (h : step s = .next t) : t.regs = (commandOutcome i s).regs := by
  obtain ⟨w, rest, hnext, hd⟩ := hi
  rw [step_of_commandNext hnext, execute_decoded hd] at h
  rw [eq_commandOutcome_of_exec h]
  exact commandOutcome_regs_congr rfl

/-- A register that is neither an operand nor an error field is changed by a reset or a command alone. -/
theorem step_register_cause {α : Type} (p : Regs → α)
    (hframe : ∀ (c : Regs) (a b : Block) (e : ErrCode) (k : Bool),
      p { c with a := a, b := b, err := e, estky := k } = p c)
    (h : step s = .next t) (hne : p t.regs ≠ p s.regs) :
    (s.resetsNext ∧ t.regs = Regs.reset) ∨
      ∃ i, s.runsNext i ∧ t.regs = (commandOutcome i s).regs ∧ p (commandOutcome i s).regs ≠ p s.regs := by
  cases step_cause h with
  | kept e => exact absurd (congrArg p e) hne
  | reset cause e => exact .inl ⟨cause, e⟩
  | writeA k v cause e => exact absurd ((congrArg p e).trans (hframe s.regs v _ _ _)) hne
  | writeB k v cause e => exact absurd ((congrArg p e).trans (hframe s.regs _ v _ _)) hne
  | rejected r cause e => exact absurd ((congrArg p e).trans (hframe s.regs _ _ _ _)) hne
  | command i cause e => exact .inr ⟨i, cause, e, e ▸ hne⟩

theorem step_a_writers (h : step s = .next t) (hne : t.regs.a ≠ s.regs.a) :
    s.resetsNext ∨ s.runsNext .zero ∨ ∃ k : Fin 4, s.writesNext (BitVec.ofNat 8 (0x10 + 4 * k.val)) := by
  cases step_cause h with
  | reset cause => exact .inl cause
  | writeA k v cause => exact .inr (.inr ⟨k, cause⟩)
  | command i cause e =>
    by_cases hi : i = .zero
    · exact .inr (.inl (hi ▸ cause))
    · exact absurd ((congrArg Regs.a e).trans (commandOutcome_a hi)) hne
  | kept e | writeB _ _ _ e | rejected _ _ e => exact absurd (congrArg Regs.a e) hne

theorem step_b_writers (h : step s = .next t) (hne : t.regs.b ≠ s.regs.b) :
    s.resetsNext ∨ s.runsNext .zero ∨ ∃ k : Fin 4, s.writesNext (BitVec.ofNat 8 (0x20 + 4 * k.val)) := by
  cases step_cause h with
  | reset cause => exact .inl cause
  | writeB k v cause => exact .inr (.inr ⟨k, cause⟩)
  | command i cause e =>
    by_cases hi : i = .zero
    · exact .inr (.inl (hi ▸ cause))
    · exact absurd ((congrArg Regs.b e).trans (commandOutcome_b hi)) hne
  | kept e | writeA _ _ _ e | rejected _ _ e => exact absurd (congrArg Regs.b e) hne

theorem step_r_writers (h : step s = .next t) (hne : t.regs.r ≠ s.regs.r) :
    s.resetsNext ∨ s.runsNext .zero ∨ s.runsNext .dbl ∨ (∃ n, s.runsNext (.pad n)) ∨ s.runsNext .s2vXorend ∨
      (∃ n, s.runsNext (.s2vPadend n)) ∨ s.runsNext .ivmask := by
  rcases step_register_cause Regs.r (fun _ _ _ _ _ => rfl) h hne with ⟨hr, -⟩ | ⟨i, hi, -, hw⟩
  · exact .inl hr
  · right
    rcases commandOutcome_r_writers hw with rfl | rfl | ⟨n, rfl⟩ | rfl | ⟨n, rfl⟩ | rfl
    · exact .inl hi
    · exact .inr (.inl hi)
    · exact .inr (.inr (.inl ⟨n, hi⟩))
    · exact .inr (.inr (.inr (.inl hi)))
    · exact .inr (.inr (.inr (.inr (.inl ⟨n, hi⟩))))
    · exact .inr (.inr (.inr (.inr (.inr hi))))

theorem step_d_writers (h : step s = .next t) (hne : t.regs.d ≠ s.regs.d) :
    s.resetsNext ∨ s.runsNext .zero ∨ s.runsNext .s2vInit ∨ s.runsNext .s2vAbsorb ∨ s.runsNext .s2vXorend ∨
      ∃ n, s.runsNext (.s2vPadend n) := by
  rcases step_register_cause Regs.d (fun _ _ _ _ _ => rfl) h hne with ⟨hr, -⟩ | ⟨i, hi, -, hw⟩
  · exact .inl hr
  · right
    rcases commandOutcome_d_writers hw with rfl | rfl | rfl | rfl | ⟨n, rfl⟩
    · exact .inl hi
    · exact .inr (.inl hi)
    · exact .inr (.inr (.inl hi))
    · exact .inr (.inr (.inr (.inl hi)))
    · exact .inr (.inr (.inr (.inr ⟨n, hi⟩)))

theorem step_hcnt_writers (h : step s = .next t) (hne : t.regs.hcnt ≠ s.regs.hcnt) :
    s.runsNext .s2vInit ∨ s.runsNext .zero ∨ s.resetsNext ∨ s.runsNext .s2vAbsorb := by
  rcases step_register_cause Regs.hcnt (fun _ _ _ _ _ => rfl) h hne with ⟨hr, -⟩ | ⟨i, hi, -, hw⟩
  · exact .inr (.inr (.inl hr))
  · rcases commandOutcome_hcnt_writers hw with rfl | rfl | rfl
    · exact .inl hi
    · exact .inr (.inl hi)
    · exact .inr (.inr (.inr hi))

/-- Every step that changes `PHASE` is one of its transitions (10_state.md R30). -/
theorem step_phase_transitions (h : step s = .next t) (hne : t.regs.phase ≠ s.regs.phase) :
    (s.runsNext .s2vInit ∧ t.regs.phase = .chain) ∨
      (s.regs.phase = .chain ∧ t.regs.phase = .done ∧
        (s.runsNext .s2vXorend ∨ ∃ n, s.runsNext (.s2vPadend n))) ∨
      (s.regs.phase = .chain ∧ t.regs.phase = .idle ∧ s.runsNext .s2vAbsorb ∧ t.regs.err = .failed .ehcnt) ∨
      (t.regs.phase = .idle ∧ (s.runsNext .zero ∨ s.resetsNext)) := by
  rcases step_register_cause Regs.phase (fun _ _ _ _ _ => rfl) h hne with ⟨hr, e⟩ | ⟨i, hi, e, hw⟩ <;> rw [e]
  · exact .inr (.inr (.inr ⟨rfl, .inr hr⟩))
  · rcases commandOutcome_phase_transitions hw with ⟨rfl, ht⟩ | ⟨hs, ht, rfl | ⟨n, rfl⟩⟩ | ⟨hs, ht, rfl, herr⟩ |
      ⟨ht, rfl⟩
    · exact .inl ⟨hi, ht⟩
    · exact .inr (.inl ⟨hs, ht, .inl hi⟩)
    · exact .inr (.inl ⟨hs, ht, .inr ⟨n, hi⟩⟩)
    · exact .inr (.inr (.inl ⟨hs, ht, hi, herr⟩))
    · exact .inr (.inr (.inr ⟨ht, .inl hi⟩))

theorem step_eq_writers (h : step s = .next t) (hne : t.regs.eq ≠ s.regs.eq) :
    s.runsNext .cmp ∨ (t.regs.eq = false ∧ (s.runsNext .zero ∨ s.resetsNext)) := by
  rcases step_register_cause Regs.eq (fun _ _ _ _ _ => rfl) h hne with ⟨hr, e⟩ | ⟨i, hi, e, hw⟩ <;> rw [e]
  · exact .inr ⟨rfl, .inr hr⟩
  · rcases commandOutcome_eq_writers hw with rfl | rfl
    · exact .inl hi
    · exact .inr ⟨rfl, .inl hi⟩

/-- `ERR` and `ESTKY` are written by the command port and by reset alone (10_state.md R27). -/
theorem step_error_writers (h : step s = .next t)
    (hne : t.regs.err ≠ s.regs.err ∨ t.regs.estky ≠ s.regs.estky) : s.writesNext 0x00 ∨ s.resetsNext := by
  cases step_cause h with
  | reset cause => exact .inr cause
  | rejected _ cause => exact .inl cause
  | command i cause => exact .inl cause.writesNext
  | kept e | writeA _ _ _ e | writeB _ _ _ e => simp [e] at hne

/-- Reset and ZERO apart, a step that changes `ESTKY` reports a failure and sets it (10_state.md R27). -/
theorem step_estky_change (h : step s = .next t) (hne : t.regs.estky ≠ s.regs.estky) :
    s.resetsNext ∨ s.runsNext .zero ∨ (t.regs.err ≠ .ok ∧ t.regs.estky = true) := by
  cases step_cause h with
  | reset cause => exact .inl cause
  | rejected _ _ e => exact .inr (.inr (by simp [e]))
  | command i cause e =>
    rw [e] at hne ⊢
    by_cases hi : i = .zero
    · exact .inr (.inl (hi ▸ cause))
    · have herr : (commandOutcome i s).regs.err ≠ .ok := fun hok => hne (commandOutcome_estky_of_ok hok hi)
      exact .inr (.inr ⟨herr, commandOutcome_estky_of_err herr⟩)
  | kept e | writeA _ _ _ e | writeB _ _ _ e => simp [e] at hne

end Sys2Proof.Machine

/-! The invariant of CORE's registers (10_state.md R27, R30, R31, R32; 70_reset_and_hazards.md R150, R151). -/

namespace Sys2Proof.Machine

variable {s t : State} {i : Instr}

/-- A success that leaves the chain's registers alone keeps the invariant. -/
theorem wf_of_chain_kept {c c' : Regs} (hc : c.wf) (hhcnt : c'.hcnt = c.hcnt) (hphase : c'.phase = c.phase)
    (hd : c'.d = c.d) (herr : c'.err = .ok) : c'.wf := by
  obtain ⟨hbound, hzero, hidle, -⟩ := hc
  refine ⟨hhcnt ▸ hbound, ?_, ?_, fun h => absurd herr h⟩
  · rw [hphase, hd]
    exact hzero
  · rw [hphase, hhcnt]
    exact hidle

/-- One more absorb does not wrap a count of the invariant (10_state.md R31). -/
theorem toNat_hcnt_succ {h : BitVec 7} (hbound : h.toNat ≤ 126) : (h + 1).toNat = h.toNat + 1 :=
  BitVec.toNat_add_of_lt (y := 1) (by simp; omega)

theorem fail_wf {f : Failure} (hs : s.regs.wf) : (fail f s).regs.wf := by
  by_cases hf : f = .ehcnt
  · subst hf
    exact ⟨Nat.zero_le _, fun _ => rfl, fun _ => rfl, fun _ => rfl⟩
  · rw [fail_regs_of_ne_ehcnt hf]
    obtain ⟨hbound, hzero, hidle, -⟩ := hs
    exact ⟨hbound, hzero, hidle, fun _ => rfl⟩

theorem commandEffect_wf (hs : s.regs.wf) (hpass : failedCheck i s.regs = none) : (commandEffect i s).regs.wf := by
  have hbound : s.regs.hcnt.toNat ≤ 126 := hs.1
  have hok {p : Prop} : (commandEffect i s).regs.err ≠ .ok → p := fun h => absurd (commandEffect_err i s) h
  cases i
  case s2vInit => exact ⟨Nat.zero_le _, fun h => absurd rfl h, fun _ => rfl, hok⟩
  case s2vAbsorb =>
    obtain ⟨hphase, hne⟩ := absorb_passes hpass
    have hcount : (s.regs.hcnt + 1).toNat ≤ 126 := by
      rw [toNat_hcnt_succ hbound]
      omega
    have hopen : (commandEffect .s2vAbsorb s).regs.phase = .chain := hphase
    exact ⟨hcount, fun h => absurd hopen h, fun h => absurd (hopen.symm.trans h) (by decide), hok⟩
  case s2vXorend => exact ⟨hbound, fun _ => rfl, fun h => Phase.noConfusion h, hok⟩
  case s2vPadend n => exact ⟨hbound, fun _ => rfl, fun h => Phase.noConfusion h, hok⟩
  case zero => exact ⟨Nat.zero_le _, fun _ => rfl, fun _ => rfl, hok⟩
  all_goals exact wf_of_chain_kept hs rfl rfl rfl rfl

theorem commandOutcome_wf (hs : s.regs.wf) : (commandOutcome i s).regs.wf := by
  rcases commandOutcome_cases i s with ⟨f, -, e⟩ | ⟨hpass, e⟩ <;> rw [e]
  · exact fail_wf hs
  · exact commandEffect_wf hs hpass

theorem step_regs_wf (hs : s.regs.wf) (h : step s = .next t) : t.regs.wf := by
  cases step_cause h with
  | reset _ e => rw [e]; decide
  | rejected r _ e => rw [e, ← fail_regs_of_ne_ehcnt (failureOf_ne_ehcnt r)]; exact fail_wf hs
  | command i _ e => rw [e]; exact commandOutcome_wf hs
  | kept e | writeA _ _ _ e | writeB _ _ _ e => rw [e]; exact hs

theorem execute_inReset {w : Word} (h : execute w s = .next t) : t.inReset = s.inReset := by
  rcases execute_cases w s with ⟨e, -, hex⟩ | ⟨i, -, hex⟩ <;> rw [hex] at h
  · cases h
    exact fail_inReset _
  · exact (exec_bus_side h).1

theorem busWrite_inReset {off : BitVec 8} {w : Word} (h : busWrite off w s = .next t) : t.inReset = s.inReset := by
  rcases busWrite_cases off w s with ⟨-, e⟩ | ⟨k, -, e⟩ | ⟨k, -, e⟩ | ⟨-, e⟩ <;> rw [e] at h
  · exact execute_inReset h
  all_goals cases h; rfl

/-- Reset stays asserted only from its assertion on, through steps that change no register (70_reset_and_hazards.md R151). -/
theorem step_to_inReset (h : step s = .next t) (ht : t.inReset = true) :
    t.regs = Regs.reset ∨ (s.inReset = true ∧ t.regs = s.regs) := by
  rcases step_cases h with ⟨-, rfl⟩ | ⟨rest, -, rfl⟩ | ⟨rest, -, rfl⟩ | ⟨rest, off, hr, -, -, rfl⟩ |
    ⟨rest, off, w, hr, -, -, hw⟩
  · exact .inr ⟨ht, rfl⟩
  · exact .inl rfl
  · cases ht
  · exact absurd (hr.symm.trans ht) Bool.false_ne_true
  · have hkept : t.inReset = s.inReset := busWrite_inReset (s := s.afterWrite rest) hw
    exact absurd (hr.symm.trans (hkept.symm.trans ht)) Bool.false_ne_true

/-- Settles O4: each cause of a step keeps the registers' invariant, and reset is left asserted by idling and its assertion alone. -/
theorem invariantKeptByEveryStep : Obligations.InvariantKeptByEveryStep := by
  unfold Obligations.InvariantKeptByEveryStep
  rintro s t ⟨hregs, hreset⟩ h
  refine ⟨step_regs_wf hregs h, fun ht => ?_⟩
  rcases step_to_inReset h ht with e | ⟨hs, e⟩
  · exact e
  · exact e.trans (hreset hs)

end Sys2Proof.Machine

/-! STATUS: its bits and fields, and a host's reading of it (10_state.md R28; 93_implementation_defined.md I10, I11). -/

namespace Sys2Proof.Machine

/-- STATUS bit by bit (10_state.md R28). -/
theorem getLsbD_statusWord (c : Regs) (j : Nat) :
    (statusWord c).getLsbD j =
      if j < 3 then (errBits c.err).getLsbD j
      else if j = 3 then c.estky
      else if j = 4 then c.eq
      else if j < 7 then (phaseBits c.phase).getLsbD (j - 5)
      else if j = 7 then false
      else c.hcnt.getLsbD (j - 8) := by
  simp only [statusWord, BitVec.getLsbD_or, BitVec.getLsbD_shiftLeft, BitVec.getLsbD_setWidth, BitVec.getLsbD_ofBool]
  split_ifs <;> grind

theorem busRead_status (c : Regs) : busRead 0x04 c = statusWord c := rfl

section Fields

variable (c : Regs)

theorem statusWord_err : (statusWord c).extractLsb' 0 3 = errBits c.err := by
  ext k hk
  simp [← BitVec.getLsbD_eq_getElem, getLsbD_statusWord, hk]

theorem statusWord_estky : (statusWord c).getLsbD 3 = c.estky := getLsbD_statusWord c 3

theorem statusWord_eq : (statusWord c).getLsbD 4 = c.eq := getLsbD_statusWord c 4

theorem statusWord_phase : (statusWord c).extractLsb' 5 2 = phaseBits c.phase := by
  ext k hk
  simp [← BitVec.getLsbD_eq_getElem, getLsbD_statusWord, hk, show ¬ 5 + k < 3 by omega, show 5 + k ≠ 3 by omega,
    show 5 + k ≠ 4 by omega, show 5 + k < 7 by omega]

theorem statusWord_bit7 : (statusWord c).getLsbD 7 = false := getLsbD_statusWord c 7

theorem statusWord_hcnt : (statusWord c).extractLsb' 8 7 = c.hcnt := by
  ext k hk
  simp [← BitVec.getLsbD_eq_getElem, getLsbD_statusWord, hk, show ¬ 8 + k < 3 by omega, show 8 + k ≠ 3 by omega,
    show 8 + k ≠ 4 by omega, show ¬ 8 + k < 7 by omega, show 8 + k ≠ 7 by omega]

theorem statusWord_high : (statusWord c).extractLsb' 15 17 = 0 := by
  ext k hk
  simp [← BitVec.getLsbD_eq_getElem, getLsbD_statusWord, hk, show ¬ 15 + k < 3 by omega,
    show 15 + k ≠ 3 by omega, show 15 + k ≠ 4 by omega, show ¬ 15 + k < 7 by omega, show 15 + k ≠ 7 by omega,
    show 15 + k - 8 = k + 7 by omega]

end Fields

theorem errBits_le (e : ErrCode) : (errBits e).toNat ≤ 4 := by
  rcases e with _ | (_ | _ | _ | _) <;> decide

theorem phaseBits_ne_three (p : Phase) : phaseBits p ≠ 3 := by
  cases p <;> decide

/-- Settles O32: each field from the bits of STATUS, its codes, and the ignored write of the register map. -/
theorem statusHoldsItsFields : Obligations.StatusHoldsItsFields := by
  unfold Obligations.StatusHoldsItsFields
  intro c
  rw [busRead_status, statusWord_err, statusWord_phase, statusWord_hcnt]
  exact ⟨rfl, statusWord_estky c, statusWord_eq c, rfl, statusWord_bit7 c, rfl, statusWord_high c,
    ⟨rfl, rfl, rfl, rfl, rfl⟩, ⟨rfl, rfl, rfl⟩, errBits_le c.err, phaseBits_ne_three c.phase,
    fun ⟨hbound, _⟩ => hbound, fun _ _ => rfl⟩

theorem errOfStatus_statusWord (c : Regs) : errOfStatus (statusWord c) = some c.err := by
  rw [errOfStatus, statusWord_err]
  rcases c.err with _ | (_ | _ | _ | _) <;> rfl

theorem phaseOfStatus_statusWord (c : Regs) : phaseOfStatus (statusWord c) = some c.phase := by
  rw [phaseOfStatus, statusWord_phase]
  cases c.phase <;> rfl

/-- Settles O33: the host's readers meet the fields of STATUS, one by one. -/
theorem hostReadsStatusBack : Obligations.HostReadsStatusBack := by
  unfold Obligations.HostReadsStatusBack
  intro c
  rw [busRead_status]
  exact ⟨errOfStatus_statusWord c, phaseOfStatus_statusWord c, statusWord_estky c, statusWord_eq c, statusWord_hcnt c⟩

end Sys2Proof.Machine

/-! Who writes each register, and what no command reads (10_state.md R21 to R32). -/

namespace Sys2Proof.Machine

variable {s t : State} {i : Instr}

/-! ### What no command reads -/

/-- No command reads `EQ` (10_state.md R26): with another one it leaves the same state but for `EQ`. -/
theorem commandOutcome_setEq (i : Instr) (s : State) (e : Bool) :
    commandOutcome i s = (commandOutcome i (s.setEq e)).setEq (commandOutcome i s).regs.eq :=
  commandOutcome_rel (P := fun x y => x = y.setEq x.regs.eq) (failedCheck_congr rfl rfl)
    (fun f _ => by cases f <;> rfl) (by cases i <;> rfl)

/-- No command reads `ERR` or `ESTKY` (10_state.md R27), and each writes `ERR`. -/
theorem commandOutcome_setErr_setEstky (i : Instr) (s : State) (e : ErrCode) (k : Bool) :
    commandOutcome i s =
      (commandOutcome i ((s.setErr e).setEstky k)).setEstky (commandOutcome i s).regs.estky :=
  commandOutcome_rel (P := fun x y => x = y.setEstky x.regs.estky) (failedCheck_congr rfl rfl)
    (fun f _ => by cases f <;> rfl) (by cases i <;> rfl)

/-- No command but CMP reads `B` (10_state.md R22). -/
theorem commandOutcome_setB (hi : i ≠ .cmp) (s : State) (b : Block) :
    commandOutcome i (s.setB b) = (commandOutcome i s).setB (if i = .zero then 0 else b) := by
  refine commandOutcome_rel (P := fun x y => y = x.setB (if i = .zero then 0 else b)) (failedCheck_congr rfl rfl)
    (fun f hf => ?_) ?_
  · have hzero : i ≠ .zero := by
      rintro rfl
      cases hf
    rw [if_neg hzero]
    cases f <;> rfl
  · cases i
    case cmp => exact absurd rfl hi
    all_goals rfl

/-- No bus read shows `D` (10_state.md R24, R32). -/
theorem busRead_setD (off : BitVec 8) (c : Regs) (d : Block) : busRead off { c with d := d } = busRead off c := by
  unfold busRead
  split <;> rfl

/-! ### The bus read as a step -/

theorem step_read {off : BitVec 8} {rest : List Input} (hr : s.inReset = false)
    (hp : s.pending = .access (.read .w32 off) :: rest) (hoff : off.toNat % 4 = 0) :
    step s = .next (s.afterRead rest (busRead off s.regs)) := by
  simp only [step, serveNext, hp, serveInput, serve, refusalOf_none.2 ⟨rfl, hoff⟩]
  rw [if_neg (by simp [hr])]
  rfl

theorem read_of_step {width : Width} {off : BitVec 8} {rest : List Input}
    (hp : s.pending = .access (.read width off) :: rest) (h : step s = .next t) :
    s.inReset = false ∧ width = .w32 ∧ off.toNat % 4 = 0 := by
  rcases step_cases h with ⟨hq, -⟩ | ⟨_, hq, -⟩ | ⟨_, hq, -⟩ | ⟨_, _, hr, hq, hoff, -⟩ | ⟨_, _, _, -, hq, -⟩
  case inr.inr.inr.inl =>
    cases hp.symm.trans hq
    exact ⟨hr, rfl, hoff⟩
  all_goals cases hp.symm.trans hq

/-! ### The statements -/

theorem foldl_or_eq_zero_iff {α : Type} (f : α → Byte) (l : List α) (z : Byte) :
    l.foldl (fun acc i => acc ||| f i) z = 0 ↔ z = 0 ∧ ∀ i ∈ l, f i = 0 := by
  induction l generalizing z with
  | nil => simp
  | cons x l ih =>
    have hor : z ||| f x = 0 ↔ z = 0 ∧ f x = 0 := BitVec.or_eq_zero_iff
    rw [List.foldl_cons, ih, hor, List.forall_mem_cons, and_assoc]

/-- The comparator's accumulator is zero exactly when every pair of bytes agrees (42_seal_open_units.md R113). -/
theorem ctEq_iff (a b : Block) : ctEq a b = true ↔ ∀ i : Fin 16, byteOf a i = byteOf b i := by
  rw [ctEq, beq_iff_eq, ctAcc, foldl_or_eq_zero_iff]
  simp [BitVec.xor_eq_zero_iff]

/-- Settles O40: CMP by `ctEq_iff`, the writers of `EQ` by `step_eq_writers`, and no reader by `commandOutcome_setEq`. -/
theorem eqIsWrittenOnlyByCmpZeroAndReset : Obligations.EqIsWrittenOnlyByCmpZeroAndReset := by
  unfold Obligations.EqIsWrittenOnlyByCmpZeroAndReset
  refine ⟨fun s => ⟨_, rfl, ctEq_iff _ _⟩, fun s t h hne => step_eq_writers h hne, ?_, statusWord_eq, ?_⟩
  · rintro s t h (hzero | hreset)
    · rw [step_of_runsNext hzero h]
      rfl
    · rw [step_of_resetsNext hreset h]
      rfl
  · intro i s t e h
    rw [eq_commandOutcome_of_exec h]
    exact ⟨_, exec_eq_commandOutcome i (s.setEq e), commandOutcome_setEq i s e⟩

/-- Settles O41: the two error fields after a command, after a rejected word, and after any other step. -/
theorem errAndStickyFlagFollowCommands : Obligations.ErrAndStickyFlagFollowCommands := by
  unfold Obligations.ErrAndStickyFlagFollowCommands
  refine ⟨?_, ?_, ?_, fun s t h hne => step_error_writers h hne, errBits_le, ?_⟩
  · intro i s t h
    rw [eq_commandOutcome_of_exec h]
    refine ⟨commandOutcome_estky_of_err, commandOutcome_estky_of_ok, ?_⟩
    rintro rfl
    rfl
  · intro w s t e hw h
    rw [execute_rejected hw h]
    exact ⟨nofun, rfl⟩
  · intro s t h hs ht
    have hne : t.regs.estky ≠ s.regs.estky := by simp [hs, ht]
    rcases step_estky_change h hne with hreset | hzero | ⟨-, hset⟩
    · exact .inr hreset
    · exact .inl hzero
    · exact absurd (ht.symm.trans hset) Bool.false_ne_true
  · intro i s t e k h
    rw [eq_commandOutcome_of_exec h]
    exact ⟨_, exec_eq_commandOutcome i ((s.setErr e).setEstky k), commandOutcome_setErr_setEstky i s e k⟩

/-- Settles O42: each transition of `PHASE` by its command, and that there is no other by `step_phase_transitions`. -/
theorem phaseChangesOnlyByItsTransitions : Obligations.PhaseChangesOnlyByItsTransitions := by
  unfold Obligations.PhaseChangesOnlyByItsTransitions
  refine ⟨⟨rfl, rfl, rfl, phaseBits_ne_three⟩, fun s => ⟨_, rfl, rfl, rfl, rfl⟩, fun s => ⟨_, rfl, rfl⟩, ?_, ?_,
    fun s t h hne => step_phase_transitions h hne⟩
  · intro s t h hreset
    rw [step_of_resetsNext hreset h]
    rfl
  · intro s n hphase hn
    refine ⟨⟨_, exec_eq_commandOutcome _ s, ?_⟩, ⟨_, exec_eq_commandOutcome _ s, ?_⟩,
      ⟨_, exec_eq_commandOutcome _ s, ?_⟩⟩
    · rw [commandOutcome_of_passes (failedCheck_xorend_of_chain hphase)]
      exact ⟨rfl, rfl⟩
    · rw [commandOutcome_of_passes (failedCheck_padend_of_chain hn hphase)]
      exact ⟨rfl, rfl⟩
    · have hcheck := failedCheck_absorb_of_chain hphase
      split <;> rename_i hcount
      · rw [if_pos hcount] at hcheck
        rw [commandOutcome_of_fails hcheck]
        rfl
      · rw [if_neg hcount] at hcheck
        rw [commandOutcome_of_passes hcheck]
        exact hphase

/-- Settles O43: the writers of each register, with reset and ZERO set aside. -/
theorem registersChangeOnlyByTheirWriters : Obligations.RegistersChangeOnlyByTheirWriters := by
  unfold Obligations.RegistersChangeOnlyByTheirWriters
  intro s t h hreset hzero
  refine ⟨fun hne => ?_, fun hne => ?_, fun hne => ?_, fun hne => ?_, fun hne => ?_, fun hne => ?_, fun hne => ?_,
    fun hne => ?_, fun hne => ?_⟩
  · simpa only [hreset, hzero, false_or] using step_a_writers h hne
  · simpa only [hreset, hzero, false_or] using step_b_writers h hne
  · simpa only [hreset, hzero, false_or] using step_r_writers h hne
  · simpa only [hreset, hzero, false_or] using step_d_writers h hne
  · simpa only [hreset, hzero, false_or] using step_hcnt_writers h hne
  · rcases step_phase_transitions h hne with ⟨hinit, -⟩ | ⟨-, -, hxor | hpad⟩ | ⟨-, -, habsorb, herr⟩ | ⟨-, hz | hr⟩
    · exact .inl hinit
    · exact .inr (.inl hxor)
    · exact .inr (.inr (.inl hpad))
    · exact .inr (.inr (.inr ⟨habsorb, herr⟩))
    · exact absurd hz hzero
    · exact absurd hr hreset
  · simpa only [hreset, hzero, or_self, and_false, or_false] using step_eq_writers h hne
  · simpa only [hreset, or_false] using step_error_writers h (.inl hne)
  · have hwrites : s.writesNext 0x00 := by
      simpa only [hreset, or_false] using step_error_writers h (.inr hne)
    have hset : t.regs.err ≠ .ok ∧ t.regs.estky = true := by
      simpa only [hreset, hzero, false_or] using step_estky_change h hne
    exact ⟨hwrites, hset⟩

/-- Settles O44, by `commandOutcome_setB`. -/
theorem onlyCmpReadsB : Obligations.OnlyCmpReadsB := by
  unfold Obligations.OnlyCmpReadsB
  intro i s t b hi h
  rw [eq_commandOutcome_of_exec h]
  exact (exec_eq_commandOutcome i (s.setB b)).trans (congrArg _ (commandOutcome_setB hi s b))

/-- Settles O45: a read's answer by `busRead_setD`, `D` outside a chain by the invariant, and S2V.XOREND by its effect. -/
theorem accumulatorIsHiddenFromTheBus : Obligations.AccumulatorIsHiddenFromTheBus := by
  unfold Obligations.AccumulatorIsHiddenFromTheBus
  refine ⟨?_, fun s ⟨⟨_, hd, _⟩, _⟩ => hd, ?_⟩
  · intro s t d width off rest hp h
    obtain ⟨hr, rfl, hoff⟩ := read_of_step hp h
    rw [step_read hr hp hoff, Host.Outcome.next.injEq] at h
    refine ⟨_, step_read (s := s.setD d) hr hp hoff, ?_⟩
    rw [← h]
    exact congrArg (fun w => some (Response.data w)) (busRead_setD off s.regs d)
  · intro s hphase ha
    refine ⟨_, exec_eq_commandOutcome _ s, ?_⟩
    rw [commandOutcome_of_passes (failedCheck_xorend_of_chain hphase)]
    simp [ha]

/-- Settles O46: the bound is the invariant's, and the rest is the outcome of the command the step runs. -/
theorem hcntCountsAbsorbs : Obligations.HcntCountsAbsorbs := by
  unfold Obligations.HcntCountsAbsorbs
  rintro s t ⟨hregs, -⟩ h
  have hbound : s.regs.hcnt.toNat ≤ 126 := hregs.1
  have htbound : t.regs.hcnt.toNat ≤ 126 := (step_regs_wf hregs h).1
  refine ⟨htbound, ?_, fun habsorb hok => ?_, fun habsorb herr => ?_, fun hne => step_hcnt_writers h hne⟩
  · rintro (hinit | hzero | hreset)
    · rw [step_of_runsNext hinit h]
      rfl
    · rw [step_of_runsNext hzero h]
      rfl
    · rw [step_of_resetsNext hreset h]
      rfl
  · rw [step_of_runsNext habsorb h] at hok ⊢
    rcases commandOutcome_cases .s2vAbsorb s with ⟨f, -, e⟩ | ⟨-, e⟩ <;> rw [e] at hok ⊢
    · simp at hok
    · exact toNat_hcnt_succ hbound
  · rw [step_of_runsNext habsorb h] at herr ⊢
    rcases commandOutcome_cases .s2vAbsorb s with ⟨f, -, e⟩ | ⟨-, e⟩ <;> rw [e] at herr ⊢
    · obtain rfl : f = .ehcnt := by simpa using herr
      rfl
    · simp at herr

end Sys2Proof.Machine

/-! A chain driven by the host: S2V.INIT and a number of absorbs (10_state.md R31; 41_s2v.md R92, R93, R97). -/

namespace Sys2Proof.Machine

variable {s : State} {i : Instr}

/-- The state after the host has issued a command (20_memory.md R44). -/
def issued (i : Instr) (s : State) : State := commandOutcome i { s with response := some .written }

/-- The host issues a command whose word decodes to it. -/
theorem hostRun_cmdLine (hr : s.inReset = false) (hd : decode (encode i) = .ok i) (rest : List Input) :
    hostRun (cmdLine i :: rest) s = hostRun rest (issued i s) := by
  have hnext : { s with pending := cmdLine i :: s.pending }.commandNext (encode i) s.pending := ⟨hr, rfl⟩
  have hstep : step { s with pending := cmdLine i :: s.pending } = .next (issued i s) := by
    rw [step_of_commandNext hnext, execute_decoded hd, exec_eq_commandOutcome]
    rfl
  rw [hostRun, hstep]

/-- A chain is open and the host's last access was a command that succeeded. -/
structure ChainOpen (s : State) : Prop where
  released : s.inReset = false
  phase : s.regs.phase = .chain
  err : s.regs.err = .ok
  response : s.response = some .written

/-- An open chain after `n` more absorbs of the `A` that stands (41_s2v.md R93). -/
def afterAbsorbs (n : Nat) (s : State) : State :=
  { s with regs := { s.regs with
      d := (fun d => dbl d ^^^ s.regs.a)^[n] s.regs.d, hcnt := s.regs.hcnt + BitVec.ofNat 7 n } }

theorem afterAbsorbs_zero (s : State) : afterAbsorbs 0 s = s := by
  simp [afterAbsorbs]

theorem afterAbsorbs_succ (n : Nat) (s : State) : afterAbsorbs n (afterAbsorbs 1 s) = afterAbsorbs (n + 1) s := by
  have hcount : s.regs.hcnt + BitVec.ofNat 7 1 + BitVec.ofNat 7 n = s.regs.hcnt + BitVec.ofNat 7 (n + 1) := by
    rw [BitVec.add_assoc, ← BitVec.ofNat_add, Nat.add_comm 1 n]
  simp only [afterAbsorbs, hcount]
  rfl

theorem ChainOpen.stays_open (h : ChainOpen s) (n : Nat) : ChainOpen (afterAbsorbs n s) :=
  ⟨h.released, h.phase, h.err, h.response⟩

theorem issued_of_written (h : s.response = some .written) : issued i s = commandOutcome i s := by
  rw [issued, ← h]

theorem ChainOpen.issued_absorb (h : ChainOpen s) (hcount : s.regs.hcnt.toNat ≠ 126) :
    issued .s2vAbsorb s = afterAbsorbs 1 s := by
  have hpass : failedCheck .s2vAbsorb s.regs = none := by
    rw [failedCheck_absorb_of_chain h.phase, if_neg hcount]
  have heffect : absorb s = (afterAbsorbs 1 s).setErr .ok := rfl
  rw [issued_of_written h.response, commandOutcome_of_passes hpass, commandEffect, heffect,
    ← (h.stays_open 1).err]
  rfl

/-- The absorb at the limit aborts the chain (41_s2v.md R97). -/
theorem ChainOpen.hostRun_absorb_at_limit (h : ChainOpen s) (hcount : s.regs.hcnt.toNat = 126) :
    hostRun [cmdLine .s2vAbsorb] s = .ok (fail .ehcnt s) := by
  have hfail : failedCheck .s2vAbsorb s.regs = some .ehcnt := by
    rw [failedCheck_absorb_of_chain h.phase, if_pos hcount]
  rw [hostRun_cmdLine h.released rfl, issued_of_written h.response, commandOutcome_of_fails hfail, hostRun]

/-- Absorbs that stay within the limit, and then whatever else the host does. -/
theorem ChainOpen.hostRun_absorbs (h : ChainOpen s) (n : Nat) (hn : s.regs.hcnt.toNat + n ≤ 126)
    (rest : List Input) :
    hostRun (List.replicate n (cmdLine .s2vAbsorb) ++ rest) s = hostRun rest (afterAbsorbs n s) := by
  induction n generalizing s with
  | zero => rw [afterAbsorbs_zero]; rfl
  | succ n ih =>
    have hcount : (afterAbsorbs 1 s).regs.hcnt.toNat = s.regs.hcnt.toNat + 1 := toNat_hcnt_succ (by omega)
    rw [List.replicate_succ, List.cons_append, hostRun_cmdLine h.released rfl, h.issued_absorb (by omega),
      ih (h.stays_open 1) (by omega), afterAbsorbs_succ]

theorem chainOpen_issued_init (hr : s.inReset = false) : ChainOpen (issued .s2vInit s) := ⟨hr, rfl, rfl, rfl⟩

/-- The count after S2V.INIT and `n` absorbs. -/
theorem hcnt_afterAbsorbs_init (s : State) {n : Nat} (hn : n ≤ 126) :
    (afterAbsorbs n (issued .s2vInit s)).regs.hcnt.toNat = n := by
  have hzero : (issued .s2vInit s).regs.hcnt = 0 := rfl
  simp [afterAbsorbs, hzero, Nat.mod_eq_of_lt (show n < 128 by omega)]

/-- Settles O47: `hostRun_absorbs` from S2V.INIT on, and the abort of the chain by the absorb at the limit. -/
theorem chainAdmitsExactlyHmaxAbsorbs : Obligations.ChainAdmitsExactlyHmaxAbsorbs := by
  unfold Obligations.ChainAdmitsExactlyHmaxAbsorbs
  intro s n hr hn
  have hopen : ChainOpen (issued .s2vInit s) := chainOpen_issued_init hr
  have hzero : (issued .s2vInit s).regs.hcnt.toNat = 0 := rfl
  rw [hostRun_cmdLine hr rfl]
  rcases Nat.lt_or_eq_of_le hn with hlt | rfl
  · have hrun := hopen.hostRun_absorbs n (by omega) []
    rw [List.append_nil] at hrun
    exact ⟨_, hrun, rfl, rfl, rfl, fun hle => ⟨hcnt_afterAbsorbs_init s hle, rfl, rfl, rfl, rfl⟩,
      fun h127 => absurd h127 (by omega)⟩
  · have hcount := hcnt_afterAbsorbs_init s (Nat.le_refl 126)
    rw [List.replicate_succ', hopen.hostRun_absorbs 126 (by omega),
      (hopen.stays_open 126).hostRun_absorb_at_limit hcount]
    exact ⟨_, rfl, fail_a _, fail_r _, fail_pending _, fun hle => absurd hle (by decide),
      fun _ => ⟨rfl, rfl, rfl, fail_err _, fail_estky _⟩⟩

end Sys2Proof.Machine

/-! The register window: what stands at each offset, what a read returns and a write changes there, and which accesses complete (20_memory.md R41 to R50). -/

namespace Sys2Proof.Machine

/-! ### The words of a block -/

/-- `word(X, k)` is bits 127-32k down to 96-32k of the value (20_memory.md R45). -/
theorem wordOf_eq_extractLsb' (x : Block) (k : Fin 4) : wordOf x k = x.extractLsb' (96 - 32 * k.val) 32 := by
  apply BitVec.eq_of_getLsbD_eq
  intro j _
  rw [getLsbD_wordOf, BitVec.getLsbD_extractLsb']

/-- A block after a write to word `k`: that word's four bytes come from their lanes, the others are kept (20_memory.md R47, R48). -/
theorem byteOf_setWord_lanes (x : Block) (k : Fin 4) (w : Word) (i : Fin 16) :
    byteOf (setWord x k w) i =
      if i.val / 4 = k.val then w.extractLsb' (24 - 8 * (i.val % 4)) 8 else byteOf x i := by
  have hlow : 8 * (3 - i.val % 4) = 24 - 8 * (i.val % 4) := by omega
  rw [byteOf_setWord, wordByte, hlow]

/-! ### The map, offset by offset -/

section Map

variable (k : Fin 4) {off : BitVec 8}

theorem portAt_a : portAt (BitVec.ofNat 8 (0x10 + 4 * k.val)) = .a k := by
  revert k
  decide

theorem portAt_b : portAt (BitVec.ofNat 8 (0x20 + 4 * k.val)) = .b k := by
  revert k
  decide

theorem portAt_r : portAt (BitVec.ofNat 8 (0x30 + 4 * k.val)) = .r k := by
  revert k
  decide

theorem portAt_reserved (h : off.toNat = 0x08 ∨ off.toNat = 0x0C ∨ 0x40 ≤ off.toNat) : portAt off = .reserved := by
  rcases portAt_cases off with ⟨hoff, -⟩ | ⟨hoff, -⟩ | ⟨k, hoff, -⟩ | ⟨k, hoff, -⟩ | ⟨k, hoff, -⟩ | ⟨-, e⟩
  case inr.inr.inr.inr.inr => exact e
  all_goals omega

theorem word_offset_aligned :
    (BitVec.ofNat 8 (0x10 + 4 * k.val)).toNat % 4 = 0 ∧ (BitVec.ofNat 8 (0x20 + 4 * k.val)).toNat % 4 = 0 := by
  revert k
  decide

end Map

/-! ### What a read returns -/

section Read

variable (c : Regs) (k : Fin 4) {off : BitVec 8}

theorem busRead_cmd : busRead 0x00 c = 0 := rfl

theorem busRead_a :
    busRead (BitVec.ofNat 8 (0x10 + 4 * k.val)) c = c.a.extractLsb' (96 - 32 * k.val) 32 := by
  simp only [busRead, portAt_a, wordOf_eq_extractLsb']

theorem busRead_b :
    busRead (BitVec.ofNat 8 (0x20 + 4 * k.val)) c = c.b.extractLsb' (96 - 32 * k.val) 32 := by
  simp only [busRead, portAt_b, wordOf_eq_extractLsb']

theorem busRead_r :
    busRead (BitVec.ofNat 8 (0x30 + 4 * k.val)) c = c.r.extractLsb' (96 - 32 * k.val) 32 := by
  simp only [busRead, portAt_r, wordOf_eq_extractLsb']

theorem busRead_reserved (h : off.toNat = 0x08 ∨ off.toNat = 0x0C ∨ 0x40 ≤ off.toNat) : busRead off c = 0 := by
  simp only [busRead, portAt_reserved h]

end Read

/-! ### What a write does -/

section Write

variable (k : Fin 4) (w : Word) (s : State) {off : BitVec 8}

theorem busWrite_a :
    busWrite (BitVec.ofNat 8 (0x10 + 4 * k.val)) w s = .next (s.setA (setWord s.regs.a k w)) := by
  simp only [busWrite, portAt_a]

theorem busWrite_b :
    busWrite (BitVec.ofNat 8 (0x20 + 4 * k.val)) w s = .next (s.setB (setWord s.regs.b k w)) := by
  simp only [busWrite, portAt_b]

/-- A write to STATUS, from `R` on or to a reserved offset has no effect (20_memory.md R42, R50). -/
theorem busWrite_ignored (h : off.toNat = 0x04 ∨ off.toNat = 0x08 ∨ off.toNat = 0x0C ∨ 0x30 ≤ off.toNat) :
    busWrite off w s = .next s := by
  rcases busWrite_cases off w s with ⟨hoff, -⟩ | ⟨k, hoff, -⟩ | ⟨k, hoff, -⟩ | ⟨-, e⟩
  case inr.inr.inr => exact e
  all_goals omega

/-- Executing any word, legal or not, answers a next state with the bus side kept (20_memory.md R44). -/
theorem execute_completes :
    ∃ t, execute w s = .next t ∧ t.inReset = s.inReset ∧ t.pending = s.pending ∧ t.response = s.response := by
  rcases execute_cases w s with ⟨e, -, hex⟩ | ⟨i, -, hex⟩
  · exact ⟨_, hex, fail_inReset _, fail_pending _, fail_response _⟩
  · have hnext := exec_eq_commandOutcome i s
    exact ⟨_, hex.trans hnext, exec_bus_side hnext⟩

theorem busWrite_completes (off : BitVec 8) : ∃ t, busWrite off w s = .next t := by
  rcases busWrite_cases off w s with ⟨-, e⟩ | ⟨k, -, e⟩ | ⟨k, -, e⟩ | ⟨-, e⟩
  · obtain ⟨t, hex, -⟩ := execute_completes w s
    exact ⟨t, e.trans hex⟩
  all_goals exact ⟨_, e⟩

end Write

/-! ### An access as a step -/

section Access

variable {s : State} {width : Width} {off : BitVec 8} {w : Word} {rest : List Input}

theorem refusalOf_misaligned (h : off.toNat % 4 ≠ 0) : refusalOf .w32 off = some .misalignedAccess := if_neg h

theorem step_access {acc : Access} (hr : s.inReset = false) (hp : s.pending = .access acc :: rest) :
    step s = serve acc { s with pending := rest } := by
  simp only [step, serveNext, hp, serveInput]
  rw [if_neg (by simp [hr])]

theorem step_write (hr : s.inReset = false) (hp : s.pending = .access (.write .w32 off w) :: rest)
    (hoff : off.toNat % 4 = 0) : step s = busWrite off w (s.afterWrite rest) := by
  rw [step_access hr hp]
  simp only [serve, refusalOf_none.2 ⟨rfl, hoff⟩]
  rfl

/-- A refused access, read or write, stops the step with its fault (20_memory.md R43). -/
theorem step_refused {f : Fault} (hr : s.inReset = false)
    (hp : s.pending = .access (.read width off) :: rest ∨ s.pending = .access (.write width off w) :: rest)
    (hf : refusalOf width off = some f) : step s = .fault f := by
  rcases hp with hp | hp <;> rw [step_access hr hp] <;> simp only [serve, hf]

end Access

/-! ### The statements -/

/-- Settles O9: the step executes the word, and the word decodes. -/
theorem stepRunsDecodedCommand : Obligations.StepRunsDecodedCommand := by
  unfold Obligations.StepRunsDecodedCommand
  intro s w i rest hnext hd
  rw [step_of_commandNext hnext, execute_decoded hd]

/-- Settles O10, by `execute_completes` from the state in which the write has been acknowledged. -/
theorem commandWriteAlwaysCompletes : Obligations.CommandWriteAlwaysCompletes := by
  unfold Obligations.CommandWriteAlwaysCompletes
  intro s w rest hnext
  obtain ⟨t, hex, hreset, hpending, hresponse⟩ := execute_completes w (s.afterWrite rest)
  exact ⟨t, (step_of_commandNext hnext).trans hex, hex, hpending, hresponse, hreset.trans hnext.1⟩

/-- Settles O34: the answer is `busRead`'s, read off the map at each offset. -/
theorem busReadReturnsMappedWord : Obligations.BusReadReturnsMappedWord := by
  unfold Obligations.BusReadReturnsMappedWord
  intro s off rest hr hp haligned
  exact ⟨_, step_read hr hp haligned,
    fun h => eq_ofNat_of_toNat h ▸ busRead_cmd s.regs,
    fun h => eq_ofNat_of_toNat h ▸ busRead_status s.regs,
    fun k h => eq_ofNat_of_toNat h ▸ busRead_a s.regs k,
    fun k h => eq_ofNat_of_toNat h ▸ busRead_b s.regs k,
    fun k h => eq_ofNat_of_toNat h ▸ busRead_r s.regs k,
    busRead_reserved s.regs⟩

/-- Settles O35: the new block is `setWord`'s, whose bytes are those of `byteOf_setWord_lanes`. -/
theorem busWriteChangesOnlyItsWord : Obligations.BusWriteChangesOnlyItsWord := by
  unfold Obligations.BusWriteChangesOnlyItsWord
  intro s k w rest hr
  obtain ⟨hoffA, hoffB⟩ := word_offset_aligned k
  refine ⟨fun hp => ⟨_, ?_, byteOf_setWord_lanes s.regs.a k w⟩, fun hp => ⟨_, ?_, byteOf_setWord_lanes s.regs.b k w⟩⟩
  · exact (step_write hr hp hoffA).trans (busWrite_a k w (s.afterWrite rest))
  · exact (step_write hr hp hoffB).trans (busWrite_b k w (s.afterWrite rest))

/-- Settles O36: `busWrite_ignored` for the writes, `busRead_reserved` for the reads. -/
theorem ignoredWritesChangeNothing : Obligations.IgnoredWritesChangeNothing := by
  unfold Obligations.IgnoredWritesChangeNothing
  intro s off rest hr haligned
  refine ⟨fun w hp hoff => ?_, fun hp hoff => ?_⟩
  · rw [step_write hr hp haligned]
    exact busWrite_ignored w _ (by omega)
  · rw [step_read hr hp haligned, busRead_reserved s.regs hoff]

/-- Settles O37: `refusalOf` names the fault of every access but an aligned one of 32 bits, which is answered. -/
theorem onlyAlignedWordAccessesComplete : Obligations.OnlyAlignedWordAccessesComplete := by
  unfold Obligations.OnlyAlignedWordAccessesComplete
  intro s width off w rest hr hp
  refine ⟨fun h => ?_, ?_, ?_, ?_, ?_⟩
  · cases width with
    | w8 | w16 => exact .inl (step_refused hr hp rfl)
    | wide => exact .inr (.inl (step_refused hr hp rfl))
    | w32 =>
      have hoff : off.toNat % 4 ≠ 0 := by simpa using h
      exact .inr (.inr (step_refused hr hp (refusalOf_misaligned hoff)))
  · rintro (rfl | rfl) - <;> exact step_refused hr hp rfl
  · rintro rfl -
    exact step_refused hr hp rfl
  · rintro rfl hoff
    exact step_refused hr hp (refusalOf_misaligned hoff)
  · rintro rfl hoff
    rcases hp with hp | hp
    · exact ⟨_, step_read hr hp hoff⟩
    · rw [step_write hr hp hoff]
      exact busWrite_completes w _ off

end Sys2Proof.Machine

/-! The command words: which fields a command's word has, which words are commands, and how every other word fails (30_encoding.md R60 to R65, R69). -/

namespace Sys2Proof

variable {w : Word} {i : Instr} {op : BitVec 4} {n : BitVec 5}

/-! ### The fields of a command's word -/

theorem encode_fields (i : Instr) : Laws.EncodeFields.Statement i := by
  cases i with
  | nop => exact Laws.EncodeFields.nop
  | dbl => exact Laws.EncodeFields.dbl
  | pad n => exact Laws.EncodeFields.pad n
  | s2vInit => exact Laws.EncodeFields.s2vInit
  | s2vAbsorb => exact Laws.EncodeFields.s2vAbsorb
  | s2vXorend => exact Laws.EncodeFields.s2vXorend
  | s2vPadend n => exact Laws.EncodeFields.s2vPadend n
  | ivmask => exact Laws.EncodeFields.ivmask
  | cmp => exact Laws.EncodeFields.cmp
  | zero => exact Laws.EncodeFields.zero

@[simp] theorem opField_encode (i : Instr) : opField (encode i) = opcodeOf i := (encode_fields i).1

@[simp] theorem lenField_encode (i : Instr) : lenField (encode i) = lengthOf i := (encode_fields i).2.1

@[simp] theorem rsvField_encode (i : Instr) : rsvField (encode i) = 0 := (encode_fields i).2.2

/-- A command is legal when its length is below 16 (30_encoding.md R61, R65). -/
theorem Instr.wf_iff (i : Instr) : i.wf = true ↔ (lengthOf i).toNat < 16 := by
  cases i <;> simp [Instr.wf, lengthOf]

/-! ### The decoder by fields -/

/-- What the opcode map can do: reject the opcode, or hand the command at it to the length check for its kind (30_encoding.md R62, R64, R65). -/
theorem decodeFields_cases (op : BitVec 4) (n : BitVec 5) :
    (0xA ≤ op.toNat ∧ decodeFields op n = .error .reservedOpcode) ∨
      (∃ i, opcodeOf i = op ∧ lengthOf i = n ∧ (op = 0x2 ∨ op = 0x6) ∧ decodeFields op n = withLength n i) ∨
      (∃ i, opcodeOf i = op ∧ lengthOf i = 0 ∧ (op ≠ 0x2 ∧ op ≠ 0x6 ∧ op.toNat < 0xA) ∧
        decodeFields op n = withoutLength n i) := by
  by_cases hop : op.toNat < 0xA
  · have hlist : op = 0x0 ∨ op = 0x1 ∨ op = 0x2 ∨ op = 0x3 ∨ op = 0x4 ∨ op = 0x5 ∨ op = 0x6 ∨ op = 0x7 ∨
        op = 0x8 ∨ op = 0x9 := by
      revert op
      decide
    rcases hlist with rfl | rfl | rfl | rfl | rfl | rfl | rfl | rfl | rfl | rfl
    · exact .inr (.inr ⟨.nop, rfl, rfl, by decide, rfl⟩)
    · exact .inr (.inr ⟨.dbl, rfl, rfl, by decide, rfl⟩)
    · exact .inr (.inl ⟨.pad n, rfl, rfl, by decide, rfl⟩)
    · exact .inr (.inr ⟨.s2vInit, rfl, rfl, by decide, rfl⟩)
    · exact .inr (.inr ⟨.s2vAbsorb, rfl, rfl, by decide, rfl⟩)
    · exact .inr (.inr ⟨.s2vXorend, rfl, rfl, by decide, rfl⟩)
    · exact .inr (.inl ⟨.s2vPadend n, rfl, rfl, by decide, rfl⟩)
    · exact .inr (.inr ⟨.ivmask, rfl, rfl, by decide, rfl⟩)
    · exact .inr (.inr ⟨.cmp, rfl, rfl, by decide, rfl⟩)
    · exact .inr (.inr ⟨.zero, rfl, rfl, by decide, rfl⟩)
  · refine .inl ⟨by omega, ?_⟩
    unfold decodeFields
    split
    case h_11 => rfl
    all_goals omega

/-- The fields of a legal command decode to it. -/
theorem decodeFields_of_wf (hi : i.wf = true) : decodeFields (opcodeOf i) (lengthOf i) = .ok i := by
  cases i
  case pad n => exact withLength_ok.2 ⟨(Instr.wf_iff _).1 hi, rfl⟩
  case s2vPadend n => exact withLength_ok.2 ⟨(Instr.wf_iff _).1 hi, rfl⟩
  all_goals exact withoutLength_ok.2 ⟨rfl, rfl⟩

/-- Fields that decode are those of a legal command. -/
theorem fields_of_decodeFields (h : decodeFields op n = .ok i) :
    opcodeOf i = op ∧ lengthOf i = n ∧ i.wf = true := by
  rcases decodeFields_cases op n with ⟨-, e⟩ | ⟨j, hop, hlen, -, e⟩ | ⟨j, hop, hlen, -, e⟩ <;> rw [e] at h
  · cases h
  · obtain ⟨hn, rfl⟩ := withLength_ok.1 h
    exact ⟨hop, hlen, (Instr.wf_iff j).2 (hlen ▸ hn)⟩
  · obtain ⟨rfl, rfl⟩ := withoutLength_ok.1 h
    exact ⟨hop, hlen, (Instr.wf_iff j).2 (by simp [hlen])⟩

/-- The words of the legal commands, by their fields (30_encoding.md R60, R62). -/
theorem decode_ok_iff :
    decode w = .ok i ↔ rsvField w = 0 ∧ opcodeOf i = opField w ∧ lengthOf i = lenField w ∧ i.wf = true := by
  constructor
  · intro h
    by_cases hrsv : rsvField w = 0
    · rw [decode_of_rsv hrsv] at h
      exact ⟨hrsv, fields_of_decodeFields h⟩
    · rw [decode, if_pos hrsv] at h
      cases h
  · rintro ⟨hrsv, hop, hlen, hi⟩
    rw [decode_of_rsv hrsv, ← hop, ← hlen, decodeFields_of_wf hi]

/-! ### The words that are no command -/

/-- Each word of 30_encoding.md R64 is rejected with `EILL`. -/
theorem decode_of_illegal
    (h : rsvField w ≠ 0 ∨ 0xA ≤ (opField w).toNat ∨ (opField w ≠ 0x2 ∧ opField w ≠ 0x6 ∧ lenField w ≠ 0)) :
    ∃ e, decode w = .error e ∧ Machine.failureOf e = .eill := by
  by_cases hrsv : rsvField w = 0
  · rw [decode_of_rsv hrsv]
    rcases decodeFields_cases (opField w) (lenField w) with
      ⟨-, e⟩ | ⟨i, -, -, hop, e⟩ | ⟨i, -, -, ⟨-, -, hop⟩, e⟩
    · exact ⟨_, e, rfl⟩
    · rcases hop with hop | hop <;> simp [hrsv, hop] at h
    · have hlen : lenField w ≠ 0 := by
        rcases h with h | h | ⟨-, -, h⟩
        · exact absurd hrsv h
        · omega
        · exact h
      exact ⟨_, e.trans (if_neg hlen), rfl⟩
  · exact ⟨_, if_pos hrsv, rfl⟩

/-- Each word of 30_encoding.md R65 is rejected with `ELEN`. -/
theorem decode_of_tooLong (hrsv : rsvField w = 0) (hop : opField w = 0x2 ∨ opField w = 0x6)
    (hlen : 16 ≤ (lenField w).toNat) : decode w = .error .lengthTooLong := by
  have htoo : ¬ (lenField w).toNat < 16 := by omega
  rw [decode_of_rsv hrsv]
  rcases hop with hop | hop <;> rw [hop] <;> exact if_neg htoo

/-- A word that neither 30_encoding.md R64 nor R65 names is a command. -/
theorem decode_of_legal (hrsv : rsvField w = 0) (hop : (opField w).toNat < 0xA)
    (hlen : lenField w = 0 ∨ ((opField w = 0x2 ∨ opField w = 0x6) ∧ (lenField w).toNat < 16)) :
    ∃ i, decode w = .ok i := by
  rw [decode_of_rsv hrsv]
  rcases decodeFields_cases (opField w) (lenField w) with
    ⟨hreserved, -⟩ | ⟨i, -, -, -, e⟩ | ⟨i, -, -, ⟨hpad, hpadend, -⟩, e⟩
  · omega
  · have hshort : (lenField w).toNat < 16 := by
      rcases hlen with hzero | ⟨-, hshort⟩
      · simp [hzero]
      · exact hshort
    exact ⟨i, e.trans (if_pos hshort)⟩
  · have hzero : lenField w = 0 := by
      rcases hlen with hzero | ⟨hop | hop, -⟩
      · exact hzero
      · exact absurd hop hpad
      · exact absurd hop hpadend
    exact ⟨i, e.trans (if_pos hzero)⟩

end Sys2Proof

namespace Sys2Proof.Machine

/-- A rejected word fails with its code and changes nothing but the error fields (30_encoding.md R63; 60_exceptions.md R132). -/
theorem execute_of_rejected {w : Word} {e : Reject} (hw : decode w = .error e) (s : State) :
    execute w s = .next (s.withError (failureOf e)) := by
  obtain ⟨t, ht, -⟩ := execute_completes w s
  rw [ht, execute_rejected hw ht]

/-- Settles O5: `decode_ok_iff` at the fields of the command's word. -/
theorem decodeOfEncodeIsIdentity : Obligations.DecodeOfEncodeIsIdentity := by
  unfold Obligations.DecodeOfEncodeIsIdentity
  intro i hi
  exact decode_ok_iff.2 ⟨rsvField_encode i, (opField_encode i).symm, (lenField_encode i).symm, hi⟩

/-- Settles O6: the word and the command's word have the same fields, by `decode_ok_iff`. -/
theorem encodeOfDecodeIsIdentity : Obligations.EncodeOfDecodeIsIdentity := by
  unfold Obligations.EncodeOfDecodeIsIdentity
  intro w i h
  obtain ⟨hrsv, hop, hlen, hi⟩ := decode_ok_iff.1 h
  exact ⟨word_ext_fields ((rsvField_encode i).trans hrsv.symm) ((lenField_encode i).trans hlen)
    ((opField_encode i).trans hop), hi⟩

/-- Settles O7: the words that `decode_of_illegal`, `decode_of_tooLong` and `decode_of_legal` tell apart, executed. -/
theorem illegalWordsFailWithEillOrElen : Obligations.IllegalWordsFailWithEillOrElen := by
  unfold Obligations.IllegalWordsFailWithEillOrElen
  intro w s
  refine ⟨fun h => ?_, fun hrsv hop hlen => ?_, fun hrsv hop hlen => ?_⟩
  · obtain ⟨e, hdecode, hcode⟩ := decode_of_illegal h
    rw [execute_of_rejected hdecode, hcode]
  · exact execute_of_rejected (decode_of_tooLong hrsv hop hlen) s
  · obtain ⟨i, hdecode⟩ := decode_of_legal hrsv hop hlen
    obtain ⟨-, -, -, hi⟩ := decode_ok_iff.1 hdecode
    exact ⟨i, hdecode, hi, execute_decoded hdecode⟩

/-- Settles O8: the legal words by evaluation, the others by the fields that O7 names. -/
theorem listedCommandWordsDecode : Obligations.ListedCommandWordsDecode := by
  unfold Obligations.ListedCommandWordsDecode
  refine ⟨by decide, fun s w hw => ?_, fun s w hw => ?_⟩
  · refine (illegalWordsFailWithEillOrElen w s).1 ?_
    fin_cases hw <;> decide
  · have hfields : rsvField w = 0 ∧ (opField w = 0x2 ∨ opField w = 0x6) ∧ 16 ≤ (lenField w).toNat := by
      fin_cases hw <;> decide
    obtain ⟨hrsv, hop, hlen⟩ := hfields
    exact (illegalWordsFailWithEillOrElen w s).2.1 hrsv hop hlen

end Sys2Proof.Machine

/-! The pseudo-instructions: a host loads a block with four writes and reads one with four reads (30_encoding.md R68). -/

namespace Sys2Proof.Machine

variable {s t : State} {off : BitVec 8} {w : Word}

/-! ### One access of the host -/

/-- The host makes one write, and CORE does what `busWrite` says once it has acknowledged it. -/
theorem hostRun_write (hr : s.inReset = false) (hoff : off.toNat % 4 = 0)
    (hw : busWrite off w (s.respond .written) = .next t) (rest : List Input) :
    hostRun (wr off w :: rest) s = hostRun rest t := by
  have hstep : step { s with pending := wr off w :: s.pending } = .next t :=
    (step_write (s := { s with pending := wr off w :: s.pending }) hr rfl hoff).trans hw
  rw [hostRun, hstep]

/-- The host writes word `k` of `A`. -/
theorem hostRun_write_a (hr : s.inReset = false) (k : Fin 4) (w : Word) (rest : List Input) :
    hostRun (wr (BitVec.ofNat 8 (0x10 + 4 * k.val)) w :: rest) s =
      hostRun rest ((s.respond .written).setA (setWord s.regs.a k w)) :=
  hostRun_write hr (word_offset_aligned k).1 (busWrite_a k w _) rest

/-- The host writes word `k` of `B`. -/
theorem hostRun_write_b (hr : s.inReset = false) (k : Fin 4) (w : Word) (rest : List Input) :
    hostRun (wr (BitVec.ofNat 8 (0x20 + 4 * k.val)) w :: rest) s =
      hostRun rest ((s.respond .written).setB (setWord s.regs.b k w)) :=
  hostRun_write hr (word_offset_aligned k).2 (busWrite_b k w _) rest

/-- The host reads one word and gets what `busRead` says. -/
theorem hostRead_eq (hr : s.inReset = false) (hoff : off.toNat % 4 = 0) :
    hostRead off s = .ok (busRead off s.regs, s.respond (.data (busRead off s.regs))) := by
  have hstep : step { s with pending := rd off :: s.pending } = .next (s.respond (.data (busRead off s.regs))) :=
    step_read (s := { s with pending := rd off :: s.pending }) hr rfl hoff
  have hrun : hostRun [rd off] s = .ok (s.respond (.data (busRead off s.regs))) := by
    rw [hostRun, hstep]
    rfl
  simp only [hostRead, hrun, State.respond_response]

/-! ### Loading and reading a block -/

theorem lda_eq (v : Block) :
    lda v = [0, 1, 2, 3].map fun k : Fin 4 => wr (BitVec.ofNat 8 (0x10 + 4 * k.val)) (wordOf v k) := rfl

/-- `LDA v`, and then whatever else the host does. -/
theorem hostRun_lda (hr : s.inReset = false) (v : Block) (rest : List Input) :
    hostRun (lda v ++ rest) s = hostRun rest ((s.respond .written).setA v) := by
  simp only [lda_eq, List.map_cons, List.map_nil, List.cons_append, List.nil_append, hostRun_write_a, hr,
    State.setA_inReset, State.respond_inReset, State.setA_regs, State.respond_regs, setWord_wordOf]
  rfl

theorem ldb_eq (v : Block) :
    ldb v = [0, 1, 2, 3].map fun k : Fin 4 => wr (BitVec.ofNat 8 (0x20 + 4 * k.val)) (wordOf v k) := rfl

/-- `LDB v`, and then whatever else the host does. -/
theorem hostRun_ldb (hr : s.inReset = false) (v : Block) (rest : List Input) :
    hostRun (ldb v ++ rest) s = hostRun rest ((s.respond .written).setB v) := by
  simp only [ldb_eq, List.map_cons, List.map_nil, List.cons_append, List.nil_append, hostRun_write_b, hr,
    State.setB_inReset, State.respond_inReset, State.setB_regs, State.respond_regs, setWord_wordOf]
  rfl

/-- The host reads word `k` of `R`. -/
theorem hostRead_r (hr : s.inReset = false) (k : Fin 4) :
    hostRead (BitVec.ofNat 8 (0x30 + 4 * k.val)) s =
      .ok (wordOf s.regs.r k, s.respond (.data (wordOf s.regs.r k))) := by
  have haligned : (BitVec.ofNat 8 (0x30 + 4 * k.val)).toNat % 4 = 0 := by
    revert k
    decide
  rw [hostRead_eq hr haligned, busRead_r, wordOf_eq_extractLsb']

/-- `RDR` gives `R` and changes nothing but the bus's answer, which is the last word read. -/
theorem hostReadR_eq (hr : s.inReset = false) :
    hostReadR s = .ok (s.regs.r, s.respond (.data (wordOf s.regs.r 3))) := by
  have h0 : hostRead 0x30 s = .ok (wordOf s.regs.r 0, s.respond (.data (wordOf s.regs.r 0))) := hostRead_r hr 0
  have h1 (u : Response) : hostRead 0x34 (s.respond u) =
      .ok (wordOf s.regs.r 1, s.respond (.data (wordOf s.regs.r 1))) := hostRead_r hr 1
  have h2 (u : Response) : hostRead 0x38 (s.respond u) =
      .ok (wordOf s.regs.r 2, s.respond (.data (wordOf s.regs.r 2))) := hostRead_r hr 2
  have h3 (u : Response) : hostRead 0x3C (s.respond u) =
      .ok (wordOf s.regs.r 3, s.respond (.data (wordOf s.regs.r 3))) := hostRead_r hr 3
  simp only [hostReadR, h0, h1, h2, h3, bind, Except.bind, ofWords_wordOf]

/-- Settles O48: `hostRun_lda`, `hostRun_ldb` and `hostReadR_eq`. -/
theorem pseudoInstructionsLoadAndRead : Obligations.PseudoInstructionsLoadAndRead := by
  unfold Obligations.PseudoInstructionsLoadAndRead
  intro s v hr
  exact ⟨hostRun_lda hr v [], hostRun_ldb hr v [], _, hostReadR_eq hr, rfl, rfl, hr⟩

end Sys2Proof.Machine

/-! The doubling unit: `dbl` bit by bit, byte by byte and as multiplication by x (40_dbl_pad.md R80, R81). -/

namespace Sys2Proof.Machine

theorem dbl_eq_shift_xor (v : Block) : dbl v = v <<< 1 ^^^ (if v.getLsbD 127 then (0x87 : Block) else 0#128) := rfl

/-! ### As a value -/

theorem getLsbD_127_iff_le_toNat (v : Block) : v.getLsbD 127 = true ↔ 2 ^ 127 ≤ v.toNat := by
  have hmsb : v.getLsbD 127 = v.msb := (BitVec.msb_eq_getLsbD_last v).symm
  rw [hmsb, BitVec.msb_eq_decide, decide_eq_true_iff]

/-- `dbl(v)` is `2v mod 2^128`, reduced when bit 127 leaves (40_dbl_pad.md R80). -/
theorem toNat_dbl (v : Block) :
    (dbl v).toNat = (2 * v.toNat % 2 ^ 128) ^^^ (if 2 ^ 127 ≤ v.toNat then 0x87 else 0) := by
  have hshift : (v <<< 1).toNat = 2 * v.toNat % 2 ^ 128 := by
    rw [BitVec.toNat_shiftLeft, Nat.shiftLeft_eq, pow_one, mul_comm]
  have hreduce : (if v.getLsbD 127 then (0x87 : Block) else 0#128).toNat = if 2 ^ 127 ≤ v.toNat then 0x87 else 0 := by
    simp only [getLsbD_127_iff_le_toNat]
    split <;> rfl
  rw [dbl_eq_shift_xor, BitVec.toNat_xor, hshift, hreduce]

/-! ### Byte by byte -/

/-- Bit 127 of a block is the top bit of byte 0 (00_scope.md R10). -/
theorem getLsbD_127_iff_byteOf_zero (v : Block) : v.getLsbD 127 = true ↔ byteOf v 0 >>> 7 = 1 := by
  have hbit : v.getLsbD 127 = (byteOf v 0).getLsbD 7 := (getLsbD_byteOf v 0 7).symm
  rw [hbit]
  generalize byteOf v 0 = b
  revert b
  decide

/-- A left shift moves the top bit of each byte into the byte before it. -/
theorem byteOf_shiftLeft_one (v : Block) (i : Fin 15) :
    byteOf (v <<< 1) i.castSucc = byteOf v i.castSucc <<< 1 ||| byteOf v i.succ >>> 7 := by
  apply BitVec.eq_of_getLsbD_eq
  intro k hk
  have hi := i.isLt
  simp only [getLsbD_byteOf, BitVec.getLsbD_or, BitVec.getLsbD_shiftLeft, BitVec.getLsbD_ushiftRight,
    Fin.val_castSucc, Fin.val_succ]
  cases k with
  | zero =>
    have hprev : 8 * (15 - i.val) + 0 - 1 = 8 * (15 - (i.val + 1)) + (7 + 0) := by omega
    rw [hprev]
    simp [show 8 * (15 - i.val) < 128 by omega, show 15 - i.val ≠ 0 by omega]
  | succ j =>
    have hprev : 8 * (15 - i.val) + (j + 1) - 1 = 8 * (15 - i.val) + j := by omega
    rw [hprev]
    simp [show 8 * (15 - i.val) + (j + 1) < 128 by omega, show j < 8 by omega, show ¬ 7 + (j + 1) < 8 by omega, hk]

theorem byteOf_shiftLeft_one_last (v : Block) : byteOf (v <<< 1) 15 = byteOf v 15 <<< 1 := by
  apply BitVec.eq_of_getLsbD_eq
  intro k hk
  have hblock : k < 128 := by omega
  have hprev : k - 1 < 8 := by omega
  simp only [getLsbD_byteOf, BitVec.getLsbD_shiftLeft]
  simp [hk, hblock, hprev]

/-- The reduction reaches no byte but the last (40_dbl_pad.md R80). -/
theorem byteOf_reduction (c : Bool) (i : Fin 16) :
    byteOf (if c then (0x87 : Block) else 0#128) i = if i = 15 ∧ c then 0x87 else 0 := by
  revert c i
  decide

theorem byteOf_dbl_castSucc (v : Block) (i : Fin 15) :
    byteOf (dbl v) i.castSucc = byteOf v i.castSucc <<< 1 ||| byteOf v i.succ >>> 7 := by
  have hi : i.castSucc ≠ 15 := Fin.castSucc_ne_last i
  rw [dbl_eq_shift_xor, byteOf_xor, byteOf_reduction, byteOf_shiftLeft_one, if_neg fun h => hi h.1]
  exact BitVec.xor_zero

theorem byteOf_dbl_last (v : Block) :
    byteOf (dbl v) 15 = byteOf v 15 <<< 1 ^^^ (if byteOf v 0 >>> 7 = 1 then 0x87 else 0) := by
  rw [dbl_eq_shift_xor, byteOf_xor, byteOf_reduction, byteOf_shiftLeft_one_last]
  simp only [true_and, getLsbD_127_iff_byteOf_zero]

/-- Settles O25: `toNat_dbl`, `byteOf_dbl_castSucc` and `byteOf_dbl_last`. -/
theorem dblByValueAndByBytes : Obligations.DblByValueAndByBytes :=
  fun v => ⟨toNat_dbl v, byteOf_dbl_castSucc v, byteOf_dbl_last v⟩

/-! ### Linear, and a bijection -/

/-- `dbl` is linear (40_dbl_pad.md R81 (d)). -/
theorem dbl_xor (a b : Block) : dbl (a ^^^ b) = dbl a ^^^ dbl b := by
  have hreduce : ∀ p q : Bool, (if p ^^ q then (0x87 : Block) else 0#128) =
      (if p then (0x87 : Block) else 0#128) ^^^ (if q then (0x87 : Block) else 0#128) := by decide
  rw [dbl_eq_shift_xor, dbl_eq_shift_xor, dbl_eq_shift_xor, BitVec.getLsbD_xor, hreduce,
    BitVec.shiftLeft_xor_distrib]
  ac_rfl

/-- The inverse of `dbl` (40_dbl_pad.md R81 (e)). -/
def halve (v : Block) : Block := if v.getLsbD 0 then ((v ^^^ (0x87 : Block)) >>> 1) ||| (1#128 <<< 127) else v >>> 1

/-- The bit that leaves at the top comes back at the bottom, since 0x87 is odd. -/
theorem getLsbD_zero_dbl (v : Block) : (dbl v).getLsbD 0 = v.getLsbD 127 := by
  rw [dbl_eq_shift_xor, BitVec.getLsbD_xor]
  cases v.getLsbD 127 <;> simp

/-- A shift left and back loses bit 127 alone. -/
theorem shiftLeft_ushiftRight_or_top (v : Block) :
    v <<< 1 >>> 1 ||| (if v.getLsbD 127 then 1#128 <<< 127 else 0#128) = v := by
  apply BitVec.eq_of_getLsbD_eq
  intro k hk
  have hback : (v <<< 1 >>> 1).getLsbD k = (decide (k < 127) && v.getLsbD k) := by
    simp [BitVec.getLsbD_ushiftRight, BitVec.getLsbD_shiftLeft, show 1 + k < 128 ↔ k < 127 by omega]
  have htop : (if v.getLsbD 127 then 1#128 <<< 127 else 0#128).getLsbD k = (decide (127 = k) && v.getLsbD 127) := by
    cases v.getLsbD 127
    case true => exact (BitVec.getLsbD_twoPow 127 k).trans (by simp)
    case false => simp
  rw [BitVec.getLsbD_or, hback, htop]
  rcases (by omega : k < 127 ∨ k = 127) with hlow | rfl
  · simp [hlow, show 127 ≠ k by omega]
  · simp

theorem halve_dbl (v : Block) : halve (dbl v) = v := by
  have hback := shiftLeft_ushiftRight_or_top v
  rw [halve, getLsbD_zero_dbl, dbl_eq_shift_xor]
  split at hback
  case isTrue htop =>
    rw [if_pos htop, if_pos htop, BitVec.xor_assoc, BitVec.xor_self, BitVec.xor_zero, hback]
  case isFalse htop =>
    rw [if_neg htop, if_neg htop, BitVec.xor_zero, ← BitVec.or_zero (x := v <<< 1 >>> 1), hback]

/-- Injective by `halve_dbl`, and so bijective on the finitely many blocks (40_dbl_pad.md R81 (e)). -/
theorem dbl_bijective : Function.Bijective dbl :=
  Finite.injective_iff_bijective.1 (Function.LeftInverse.injective halve_dbl)

theorem dbl_halve (v : Block) : dbl (halve v) = v :=
  Function.LeftInverse.rightInverse_of_surjective halve_dbl dbl_bijective.surjective v

/-! ### Multiplication by x

Polynomials over ZMod 2, where every sum of a term with itself is 0 and subtraction is addition. -/

section Polynomials

open Polynomial

/-- The polynomial whose coefficient of x^k is bit `k` of the block (40_dbl_pad.md R81 (a)). -/
noncomputable def blockPoly (v : Block) : (ZMod 2)[X] :=
  ∑ k ∈ Finset.range 128, if v.getLsbD k then X ^ k else 0

/-- The polynomial `dbl` reduces by (40_dbl_pad.md R81 (a)). Irreducible, for unification would otherwise unfold the power 128. -/
@[irreducible] noncomputable def modulus : (ZMod 2)[X] := X ^ 128 + X ^ 7 + X ^ 2 + X + 1

theorem modulus_eq : modulus = X ^ 128 + X ^ 7 + X ^ 2 + X + 1 := by
  unfold modulus
  rfl

/-- XOR is addition, coefficient by coefficient. -/
theorem blockPoly_xor (a b : Block) : blockPoly (a ^^^ b) = blockPoly a + blockPoly b := by
  simp only [blockPoly, ← Finset.sum_add_distrib]
  refine Finset.sum_congr rfl fun k _ => ?_
  rw [BitVec.getLsbD_xor]
  cases a.getLsbD k <;> cases b.getLsbD k <;> simp [CharTwo.add_self_eq_zero]

theorem blockPoly_zero : blockPoly 0#128 = 0 := by simp [blockPoly]

/-- 0x87 is x^7 + x^2 + x + 1 (40_dbl_pad.md R81 (b)). -/
theorem blockPoly_rpoly : blockPoly 0x87 = X ^ 7 + X ^ 2 + X + 1 := by
  have hbits : (Finset.range 128).filter (fun k => (0x87 : Block).getLsbD k = true) = {7, 2, 1, 0} := by decide
  rw [blockPoly, ← Finset.sum_filter, hbits]
  simp [add_assoc]

/-- A left shift multiplies by x, and loses the term x^128. -/
theorem blockPoly_shiftLeft_one (v : Block) :
    blockPoly (v <<< 1) + (if v.getLsbD 127 then X ^ 128 else 0) = X * blockPoly v := by
  have hshift : blockPoly (v <<< 1) = ∑ k ∈ Finset.range 127, if v.getLsbD k then X ^ (k + 1) else 0 := by
    rw [blockPoly, Finset.sum_range_succ', BitVec.getLsbD_shiftLeft]
    simp only [zero_lt_one, decide_true, Bool.not_true, Bool.and_false, Bool.false_and,
      Bool.false_eq_true, if_false, add_zero]
    refine Finset.sum_congr rfl fun k hk => ?_
    have hk : k < 127 := Finset.mem_range.1 hk
    rw [BitVec.getLsbD_shiftLeft]
    simp [-BitVec.getLsbD_eq_getElem, show k + 1 < 128 by omega]
  rw [hshift, blockPoly, Finset.mul_sum, Finset.sum_range_succ _ 127]
  simp only [mul_ite, mul_zero, pow_succ']

/-- 0x87 is x^128 reduced: the two differ by the modulus (40_dbl_pad.md R81 (b)). -/
theorem X_pow_sub_blockPoly_rpoly : X ^ 128 - blockPoly 0x87 = modulus := by
  rw [blockPoly_rpoly, CharTwo.sub_eq_add, modulus_eq]
  ring

/-- x times a block and its `dbl` differ by the modulus, or by nothing (40_dbl_pad.md R81 (a)). -/
theorem X_mul_blockPoly_sub_dbl (v : Block) :
    X * blockPoly v - blockPoly (dbl v) = if v.getLsbD 127 then modulus else 0 := by
  rw [dbl_eq_shift_xor, blockPoly_xor, ← blockPoly_shiftLeft_one, add_sub_add_left_eq_sub]
  split
  · exact X_pow_sub_blockPoly_rpoly
  · rw [blockPoly_zero, sub_zero]

theorem modulus_dvd_X_mul_sub_dbl (v : Block) : modulus ∣ X * blockPoly v - blockPoly (dbl v) := by
  rw [X_mul_blockPoly_sub_dbl]
  split
  · exact dvd_rfl
  · exact dvd_zero modulus

end Polynomials

/-- Settles O26: the interpretation, the modulus and the inverse of the statement are `blockPoly`, `modulus` and `halve`. -/
theorem dblIsMultiplicationByX : Obligations.DblIsMultiplicationByX := by
  unfold Obligations.DblIsMultiplicationByX
  intro poly m half hpoly hm hhalf
  obtain rfl : poly = blockPoly := funext hpoly
  obtain rfl : m = modulus := hm.trans modulus_eq.symm
  obtain rfl : half = halve := funext hhalf
  exact ⟨modulus_dvd_X_mul_sub_dbl, ⟨blockPoly_rpoly, dvd_of_eq X_pow_sub_blockPoly_rpoly.symm⟩, rfl, dbl_xor,
    dbl_bijective, halve_dbl, dbl_halve⟩

end Sys2Proof.Machine

/-! The padding unit: `pad` by bytes and by value, and that it is injective (40_dbl_pad.md R84, R86). -/

namespace Sys2Proof.Machine

variable {x y : Block} {n m : Nat} {i : Fin 16}

/-! ### By bytes -/

theorem byteOf_pad_of_lt (hi : i.val < n) : byteOf (pad x n) i = byteOf x i := by
  rw [byteOf_pad, if_pos hi]

theorem byteOf_pad_of_eq (hi : i.val = n) : byteOf (pad x n) i = 0x80 := by
  rw [byteOf_pad, if_neg (by omega), if_pos hi, padByte]

theorem byteOf_pad_of_gt (hi : n < i.val) : byteOf (pad x n) i = 0 := by
  rw [byteOf_pad, if_neg (by omega), if_neg (by omega)]

/-- The bytes from `n` on do not affect the result (40_dbl_pad.md R84). -/
theorem pad_congr (h : ∀ i : Fin 16, i.val < n → byteOf y i = byteOf x i) : pad y n = pad x n := by
  refine block_ext fun i => ?_
  rw [byteOf_pad, byteOf_pad]
  split
  · exact h i ‹_›
  · rfl

/-! ### By value -/

/-- The mask `2^(128-8n) - 1` covers the bytes from `n` on. -/
theorem getLsbD_tailMask (n k : Nat) (hk : k < 128) :
    (BitVec.ofNat 128 (2 ^ (128 - 8 * n) - 1)).getLsbD k = decide (k < 128 - 8 * n) := by
  rw [BitVec.getLsbD_ofNat, Nat.testBit_two_pow_sub_one, decide_eq_true hk, Bool.true_and]

/-- The marker `2^(127-8n)` is the top bit of byte `n`. -/
theorem getLsbD_marker (n k : Nat) (hk : k < 128) :
    (BitVec.ofNat 128 (2 ^ (127 - 8 * n))).getLsbD k = decide (127 - 8 * n = k) := by
  rw [BitVec.getLsbD_ofNat, Nat.testBit_two_pow, decide_eq_true hk, Bool.true_and]

theorem getLsbD_padByte (j : Nat) (hj : j < 8) : (0x80 : Byte).getLsbD j = decide (j = 7) := by
  revert j
  decide

/-- `pad` as a value (40_dbl_pad.md R84). -/
theorem pad_eq_mask_or_marker (x : Block) (hn : n < 16) :
    pad x n = (x &&& ~~~BitVec.ofNat 128 (2 ^ (128 - 8 * n) - 1)) ||| BitVec.ofNat 128 (2 ^ (127 - 8 * n)) := by
  refine block_ext fun i => BitVec.eq_of_getLsbD_eq fun j hj => ?_
  have hi := i.isLt
  have hk : 8 * (15 - i.val) + j < 128 := by omega
  rw [getLsbD_byteOf (_ ||| _), BitVec.getLsbD_or, BitVec.getLsbD_and, BitVec.getLsbD_not, getLsbD_tailMask n _ hk,
    getLsbD_marker n _ hk]
  rw [decide_eq_true hk, Bool.true_and]
  rcases lt_trichotomy i.val n with hlt | heq | hgt
  · rw [byteOf_pad_of_lt hlt, getLsbD_byteOf]
    simp [show ¬ 8 * (15 - i.val) + j < 128 - 8 * n by omega, show 127 - 8 * n ≠ 8 * (15 - i.val) + j by omega]
  · rw [byteOf_pad_of_eq heq, getLsbD_padByte j hj]
    simp [hj, show 8 * (15 - i.val) + j < 128 - 8 * n by omega,
      show 127 - 8 * n = 8 * (15 - i.val) + j ↔ j = 7 by omega]
  · rw [byteOf_pad_of_gt hgt]
    simp [show 8 * (15 - i.val) + j < 128 - 8 * n by omega, show 127 - 8 * n ≠ 8 * (15 - i.val) + j by omega]

/-- Settles O27: the three cases of a byte, `pad_congr` and `pad_eq_mask_or_marker`. -/
theorem padByBytesAndByValue : Obligations.PadByBytesAndByValue :=
  fun x _ hn => ⟨fun _ => byteOf_pad_of_lt, fun _ => byteOf_pad_of_eq, fun _ => byteOf_pad_of_gt,
    fun _ => pad_congr, pad_eq_mask_or_marker x hn⟩

/-! ### Injective -/

/-- The marker of the longer message stands where the padding of a shorter one is 0 (40_dbl_pad.md R86). -/
theorem length_le_of_pad_eq (hm : m < 16) (h : pad x n = pad y m) : m ≤ n := by
  by_contra hlt
  have hzero : byteOf (pad x n) ⟨m, hm⟩ = 0 := byteOf_pad_of_gt (Nat.lt_of_not_le hlt)
  have hmarker : byteOf (pad y m) ⟨m, hm⟩ = 0x80 := byteOf_pad_of_eq rfl
  rw [h, hmarker] at hzero
  exact absurd hzero (by decide)

/-- Settles O28: `length_le_of_pad_eq` both ways fixes the length, and the bytes below it are kept. -/
theorem padIsInjectiveOnShortMessages : Obligations.PadIsInjectiveOnShortMessages := by
  unfold Obligations.PadIsInjectiveOnShortMessages
  intro x y n m hn hm h
  obtain rfl : n = m := le_antisymm (length_le_of_pad_eq hn h.symm) (length_le_of_pad_eq hm h)
  refine ⟨rfl, fun i hi => ?_⟩
  rw [← byteOf_pad_of_lt hi, h, byteOf_pad_of_lt hi]

end Sys2Proof.Machine

/-! The commands DBL and PAD: their words, failures, results and examples (40_dbl_pad.md R82, R85). -/

namespace Sys2Proof.Machine

/-! ### What illegal words of an opcode do -/

/-- The opcodes without a length (30_encoding.md R64). -/
theorem illegalFieldsFail_of_no_length {op : BitVec 4} (hop : op ≠ 0x2 ∧ op ≠ 0x6) : illegalFieldsFail op := by
  rintro w s rfl h
  obtain ⟨heill, -, -⟩ := illegalWordsFailWithEillOrElen w s
  rcases h with hlen | hrsv
  · exact heill (.inr (.inr ⟨hop.1, hop.2, hlen⟩))
  · exact heill (.inl hrsv)

/-- The opcodes with a length (30_encoding.md R64, R65). -/
theorem illegalLengthsFail_of_length {op : BitVec 4} (hop : op = 0x2 ∨ op = 0x6) : illegalLengthsFail op := by
  rintro w s rfl
  obtain ⟨heill, helen, -⟩ := illegalWordsFailWithEillOrElen w s
  exact ⟨fun hrsv => heill (.inl hrsv), fun hrsv => helen hrsv hop⟩

/-! ### DBL -/

/-- `A.byte[i]` bit 7 moves to `R.byte[i-1]` bit 0 (40_dbl_pad.md R82). -/
theorem dbl_carry (v : Block) (i : Fin 15) :
    (byteOf (dbl v) i.castSucc).getLsbD 0 = (byteOf v i.succ).getLsbD 7 := by
  rw [byteOf_dbl_castSucc, BitVec.getLsbD_or, BitVec.getLsbD_shiftLeft, BitVec.getLsbD_ushiftRight]
  simp

/-- Settles O13: the result is `exec_eq_commandOutcome`, the carry `dbl_carry`, the values of `dbl` evaluation. -/
theorem dblDoublesAIntoR : Obligations.DblDoublesAIntoR := by
  unfold Obligations.DblDoublesAIntoR
  exact ⟨by decide, illegalFieldsFail_of_no_length (by decide), exec_eq_commandOutcome .dbl, by decide, by decide,
    by decide, dbl_carry, by decide⟩

/-! ### PAD -/

theorem failedCheck_pad_of_lt {n : BitVec 5} (hn : n.toNat < 16) (c : Regs) : failedCheck (.pad n) c = none :=
  if_pos hn

theorem failedCheck_pad_of_ge {n : BitVec 5} (hn : 16 ≤ n.toNat) (c : Regs) :
    failedCheck (.pad n) c = some .elen :=
  if_neg (Nat.not_lt.2 hn)

theorem exec_pad_of_lt {n : BitVec 5} (hn : n.toNat < 16) (s : State) :
    exec (.pad n) s = .next { s with regs := { s.regs with r := pad s.regs.a n.toNat, err := .ok } } := by
  rw [exec_eq_commandOutcome, commandOutcome_of_passes (failedCheck_pad_of_lt hn s.regs)]
  rfl

theorem exec_pad_of_ge {n : BitVec 5} (hn : 16 ≤ n.toNat) (s : State) :
    exec (.pad n) s = .next (s.withError .elen) := by
  rw [exec_eq_commandOutcome, commandOutcome_of_fails (failedCheck_pad_of_ge hn s.regs)]
  rfl

/-- With no bytes to keep, the padding is the same for every block, as for 0. -/
theorem pad_zero (v : Block) : pad v 0 = 0x80000000000000000000000000000000 := by
  have hany : pad v 0 = pad 0 0 := pad_congr fun _ hi => absurd hi (Nat.not_lt_zero _)
  rw [hany]
  decide

/-- The last two bytes of a block are the bits an append puts at its low end (00_scope.md R10). -/
theorem byteOf_append_of_lt {i : Fin 16} (hi : i.val < 14) (u : BitVec 112) (last last' : BitVec 16) :
    byteOf (u ++ last) i = byteOf (u ++ last') i := by
  refine BitVec.eq_of_getLsbD_eq fun k hk => ?_
  have hhigh : ¬ 8 * (15 - i.val) + k < 16 := by omega
  simp only [getLsbD_byteOf, BitVec.getLsbD_append, hhigh, if_false]

/-- The example of 40_dbl_pad.md R85: whatever the last two bytes are, they might as well be 0. -/
theorem pad_example (last : BitVec 16) :
    pad (0x112233445566778899aabbccddee#112 ++ last) 14 = 0x112233445566778899aabbccddee8000 := by
  rw [pad_congr fun i hi => byteOf_append_of_lt hi _ last 0]
  decide

/-- Settles O14: `exec_pad_of_lt` and `exec_pad_of_ge`, and `pad` at 0, 15 and the example. -/
theorem padPadsAIntoR : Obligations.PadPadsAIntoR := by
  unfold Obligations.PadPadsAIntoR
  exact ⟨by decide, illegalLengthsFail_of_length (.inl rfl), fun _ s hn => exec_pad_of_lt hn s,
    fun _ s hn => exec_pad_of_ge hn s, pad_zero,
    fun _ => ⟨byteOf_pad_of_eq rfl, fun _ => byteOf_pad_of_lt⟩, pad_example⟩

end Sys2Proof.Machine

/-! The chain commands S2V.INIT, S2V.ABSORB, S2V.XOREND and S2V.PADEND: their words, failures, results and examples (41_s2v.md R91 to R97). -/

namespace Sys2Proof.Machine

variable {s : State} {i : Instr} {f : Failure} {n : BitVec 5}

/-! ### A command by its first failed check -/

theorem exec_of_passes (h : failedCheck i s.regs = none) : exec i s = .next (commandEffect i s) := by
  rw [exec_eq_commandOutcome, commandOutcome_of_passes h]

/-- A failure other than `EHCNT` changes the error fields alone (60_exceptions.md R132). -/
theorem exec_of_fails (h : failedCheck i s.regs = some f) (hf : f ≠ .ehcnt) : exec i s = .next (s.withError f) := by
  rw [exec_eq_commandOutcome, commandOutcome_of_fails h, fail_eq_of_ne_ehcnt hf]
  rfl

/-! ### The chain steps without an open chain (41_s2v.md R91) -/

theorem exec_absorb_of_closed (hphase : s.regs.phase ≠ .chain) :
    exec .s2vAbsorb s = .next (s.withError .ephase) :=
  exec_of_fails (if_pos hphase) (by decide)

theorem exec_xorend_of_closed (hphase : s.regs.phase ≠ .chain) :
    exec .s2vXorend s = .next (s.withError .ephase) :=
  exec_of_fails (if_pos hphase) (by decide)

theorem exec_padend_of_closed (hn : n.toNat < 16) (hphase : s.regs.phase ≠ .chain) :
    exec (.s2vPadend n) s = .next (s.withError .ephase) :=
  exec_of_fails ((if_neg (Nat.not_le.2 hn)).trans (if_pos hphase)) (by decide)

/-- The length is checked before the phase (60_exceptions.md R133). -/
theorem exec_padend_of_ge (hn : 16 ≤ n.toNat) (s : State) : exec (.s2vPadend n) s = .next (s.withError .elen) :=
  exec_of_fails (if_pos hn) (by decide)

/-! ### The chain steps in an open chain (41_s2v.md R93 to R97) -/

theorem exec_absorb_of_room (hphase : s.regs.phase = .chain) (hcount : s.regs.hcnt.toNat ≠ 126) :
    exec .s2vAbsorb s = .next (commandEffect .s2vAbsorb s) :=
  exec_of_passes (by rw [failedCheck_absorb_of_chain hphase, if_neg hcount])

theorem exec_absorb_at_limit (hphase : s.regs.phase = .chain) (hcount : s.regs.hcnt.toNat = 126) :
    exec .s2vAbsorb s = .next s.aborted := by
  have hfail : failedCheck .s2vAbsorb s.regs = some .ehcnt := by
    rw [failedCheck_absorb_of_chain hphase, if_pos hcount]
  rw [exec_eq_commandOutcome, commandOutcome_of_fails hfail]
  rfl

theorem exec_xorend_of_chain (hphase : s.regs.phase = .chain) :
    exec .s2vXorend s = .next (commandEffect .s2vXorend s) :=
  exec_of_passes (failedCheck_xorend_of_chain hphase)

theorem exec_padend_of_chain (hn : n.toNat < 16) (hphase : s.regs.phase = .chain) :
    exec (.s2vPadend n) s = .next (commandEffect (.s2vPadend n) s) :=
  exec_of_passes (failedCheck_padend_of_chain hn hphase)

/-! ### The statements -/

/-- Settles O15: S2V.INIT has no check to fail, so its effect is `exec_eq_commandOutcome` in every state. -/
theorem s2vInitOpensChain : Obligations.S2vInitOpensChain := by
  unfold Obligations.S2vInitOpensChain
  exact ⟨by decide, illegalFieldsFail_of_no_length (by decide), exec_eq_commandOutcome .s2vInit,
    fun _ ha => ⟨_, exec_eq_commandOutcome .s2vInit _, ha, rfl, rfl⟩⟩

/-- Settles O16: `exec_absorb_of_room`, `exec_absorb_of_closed` and `exec_absorb_at_limit`; the order of absorbs matters for 1 and 0 from 0. -/
theorem s2vAbsorbUpdatesAccumulator : Obligations.S2vAbsorbUpdatesAccumulator := by
  unfold Obligations.S2vAbsorbUpdatesAccumulator
  refine ⟨by decide, illegalFieldsFail_of_no_length (by decide), fun s => exec_absorb_of_room,
    fun s => exec_absorb_of_closed, fun s => exec_absorb_at_limit, fun s hphase hcount => ?_,
    fun d => BitVec.xor_self, ⟨0, 1, 0, by decide⟩, by decide⟩
  have hlast : (s.regs.hcnt + 1).toNat = 126 := by
    rw [toNat_hcnt_succ (by omega), hcount]
  exact ⟨_, exec_absorb_of_room hphase (by omega), rfl, hlast⟩

/-- Settles O17: the abort leaves PHASE at IDLE, where the final commands fail by `exec_xorend_of_closed` and `exec_padend_of_closed`. -/
theorem absorbAtLimitAbortsChain : Obligations.AbsorbAtLimitAbortsChain := by
  unfold Obligations.AbsorbAtLimitAbortsChain
  intro s hphase hcount
  have hclosed : s.aborted.regs.phase ≠ .chain := Phase.noConfusion
  exact ⟨s.aborted, exec_absorb_at_limit hphase hcount, rfl, rfl, rfl, rfl, rfl, rfl, rfl, rfl, rfl,
    exec_xorend_of_closed hclosed, fun n hn => exec_padend_of_closed hn hclosed⟩

/-- Settles O18: `exec_xorend_of_chain` and `exec_xorend_of_closed`; with `A` = 0 the result is `D` itself. -/
theorem s2vXorendClosesChain : Obligations.S2vXorendClosesChain := by
  unfold Obligations.S2vXorendClosesChain
  refine ⟨by decide, illegalFieldsFail_of_no_length (by decide), fun s => exec_xorend_of_chain,
    fun s => exec_xorend_of_closed, fun s hphase ha => ⟨_, exec_xorend_of_chain hphase, ?_⟩, by decide⟩
  rw [commandEffect_xorend_regs, ha]
  exact BitVec.zero_xor

/-- S2V.PADEND reads the bytes of `A` below `n` alone (41_s2v.md R95). -/
theorem commandEffect_padend_setA {a : Block} (h : ∀ j : Fin 16, j.val < n.toNat → byteOf a j = byteOf s.regs.a j) :
    commandEffect (.s2vPadend n) (s.setA a) = (commandEffect (.s2vPadend n) s).setA a := by
  rw [commandEffect, State.setA_regs, pad_congr h]
  rfl

/-- Settles O19: `exec_padend_of_chain`, `exec_padend_of_ge` and `exec_padend_of_closed`, and `commandEffect_padend_setA` for the ignored bytes. -/
theorem s2vPadendClosesChain : Obligations.S2vPadendClosesChain := by
  unfold Obligations.S2vPadendClosesChain
  refine ⟨by decide, illegalLengthsFail_of_length (.inr rfl), fun n s => exec_padend_of_chain,
    fun n s hn => exec_padend_of_ge hn s, fun n s => exec_padend_of_closed, fun s hphase => ?_,
    fun n s a hn hphase ha => ?_, by decide⟩
  · refine ⟨_, exec_padend_of_chain (by decide) hphase, ?_⟩
    rw [commandEffect_padend_regs, ← pad_zero s.regs.a]
    rfl
  · refine ⟨_, exec_padend_of_chain hn hphase, ?_⟩
    have hopen : (s.setA a).regs.phase = .chain := hphase
    exact (exec_padend_of_chain hn hopen).trans (congrArg _ (commandEffect_padend_setA ha))

/-- A chain step in an open chain reports no `EPHASE`: it succeeds, or it is the absorb at the limit. -/
theorem chain_step_err_ne_ephase (hn : n.toNat < 16) (hphase : s.regs.phase = .chain)
    (hi : i = .s2vAbsorb ∨ i = .s2vXorend ∨ i = .s2vPadend n) :
    (commandOutcome i s).regs.err ≠ .failed .ephase := by
  have hcheck : failedCheck i s.regs = none ∨ failedCheck i s.regs = some .ehcnt := by
    rcases hi with rfl | rfl | rfl
    · rw [failedCheck_absorb_of_chain hphase]
      exact (ite_eq_or_eq _ _ _).symm
    · exact .inl (failedCheck_xorend_of_chain hphase)
    · exact .inl (failedCheck_padend_of_chain hn hphase)
  rcases hcheck with h | h
  · rw [commandOutcome_of_passes h, commandEffect_err]
    decide
  · rw [commandOutcome_of_fails h, fail_err]
    decide

/-- Settles O24: the three `EPHASE` failures outside a chain, `chain_step_err_ne_ephase` in one. -/
theorem chainStepsNeedOpenChain : Obligations.ChainStepsNeedOpenChain := by
  unfold Obligations.ChainStepsNeedOpenChain
  intro s n hn
  exact ⟨fun hphase => ⟨exec_absorb_of_closed hphase, exec_xorend_of_closed hphase, exec_padend_of_closed hn hphase⟩,
    fun hphase i hi => ⟨_, exec_eq_commandOutcome i s, chain_step_err_ne_ephase hn hphase hi⟩,
    _, exec_eq_commandOutcome .s2vInit s, rfl⟩

end Sys2Proof.Machine

/-! The host procedure S2V_host on CORE computes S2V_ref, and stops at too many headers (41_s2v.md R90, R96 to R98; 60_exceptions.md R138). -/

namespace Sys2Proof.Machine

variable {s : State} {i : Instr}

/-! ### A command of the host -/

theorem issued_bus_side (i : Instr) (s : State) :
    (issued i s).inReset = s.inReset ∧ (issued i s).pending = s.pending := by
  obtain ⟨hreset, hpending, -⟩ := exec_bus_side (exec_eq_commandOutcome i { s with response := some .written })
  exact ⟨hreset, hpending⟩

theorem issued_regs (i : Instr) (s : State) : (issued i s).regs = (commandOutcome i s).regs :=
  commandOutcome_regs_congr rfl

/-- The state after the host has issued a command and read STATUS (41_s2v.md R96). -/
def reported (i : Instr) (s : State) : State := (issued i s).respond (.data (statusWord (issued i s).regs))

theorem reported_inReset (i : Instr) (s : State) : (reported i s).inReset = s.inReset := (issued_bus_side i s).1

theorem reported_pending (i : Instr) (s : State) : (reported i s).pending = s.pending := (issued_bus_side i s).2

theorem reported_regs (i : Instr) (s : State) : (reported i s).regs = (commandOutcome i s).regs := issued_regs i s

/-- The host issues a legal command and reads STATUS: what it makes of the code it finds there. -/
theorem hostCommand_eq (hr : s.inReset = false) (hi : i.wf = true) :
    hostCommand i s = (hostErrorOf (commandOutcome i s).regs.err).elim (.ok (reported i s)) .error := by
  have hrun : hostRun [cmdLine i] s = .ok (issued i s) := hostRun_cmdLine hr (decodeOfEncodeIsIdentity i hi) []
  have hread := hostRead_eq (off := 0x04) ((issued_bus_side i s).1.trans hr) (by decide)
  simp only [hostCommand, hrun, hread, busRead_status, bind, Except.bind, errOfStatus_statusWord, issued_regs, reported]
  cases hostErrorOf (commandOutcome i s).regs.err <;> rfl

/-- The host goes on after a command that passes its checks. -/
theorem hostCommand_of_passes (hr : s.inReset = false) (hi : i.wf = true) (hpass : failedCheck i s.regs = none) :
    ∃ t, hostCommand i s = .ok t ∧ t.inReset = false ∧ t.pending = s.pending ∧
      t.regs = (commandEffect i s).regs := by
  refine ⟨reported i s, ?_, (reported_inReset i s).trans hr, reported_pending i s, ?_⟩
  · rw [hostCommand_eq hr hi, commandOutcome_of_passes hpass, commandEffect_err]
    rfl
  · rw [reported_regs, commandOutcome_of_passes hpass]

theorem hostCommandOn_eq (hr : s.inReset = false) (v : Block) (i : Instr) :
    hostCommandOn v i s = hostCommand i ((s.respond .written).setA v) := by
  have hrun : hostRun (lda v) s = .ok ((s.respond .written).setA v) := by
    simpa [hostRun] using hostRun_lda hr v []
  rw [hostCommandOn, hrun]
  rfl

/-- The host loads `A` and issues a command that passes its checks. -/
theorem hostCommandOn_of_passes (hr : s.inReset = false) (hi : i.wf = true) (hpass : failedCheck i s.regs = none)
    (v : Block) :
    ∃ t, hostCommandOn v i s = .ok t ∧ t.inReset = false ∧ t.pending = s.pending ∧
      t.regs = (commandEffect i ((s.respond .written).setA v)).regs := by
  rw [hostCommandOn_eq hr]
  exact hostCommand_of_passes hr hi ((failedCheck_congr rfl rfl).trans hpass)

/-! ### The chain under the host -/

/-- The host has a chain open: its accumulator is `d`, it has seen `n` absorbs, and `p` are the inputs still to come. -/
structure ChainAt (s : State) (d : Block) (n : Nat) (p : List Input) : Prop where
  released : s.inReset = false
  pending : s.pending = p
  phase : s.regs.phase = .chain
  acc : s.regs.d = d
  count : s.regs.hcnt.toNat = n

/-- The host has closed its chain of `n` absorbs with the final block `r`. -/
structure ClosedAt (s : State) (r : Block) (n : Nat) (p : List Input) : Prop where
  released : s.inReset = false
  pending : s.pending = p
  phase : s.regs.phase = .done
  result : s.regs.r = r
  count : s.regs.hcnt.toNat = n

theorem hostCommandOn_init (hr : s.inReset = false) (v : Block) :
    ∃ t, hostCommandOn v .s2vInit s = .ok t ∧ ChainAt t v 0 s.pending := by
  obtain ⟨t, ht, hreset, hpending, hregs⟩ := hostCommandOn_of_passes (i := .s2vInit) hr rfl rfl v
  rw [commandEffect_init_regs] at hregs
  exact ⟨t, ht, hreset, hpending, by rw [hregs], by rw [hregs]; rfl, by rw [hregs]; rfl⟩

variable {d : Block} {n : Nat} {p : List Input}

theorem ChainAt.hostCommandOn_absorb (h : ChainAt s d n p) (hn : n < 126) (v : Block) :
    ∃ t, hostCommandOn v .s2vAbsorb s = .ok t ∧ ChainAt t (dbl d ^^^ v) (n + 1) p := by
  obtain ⟨hr, rfl, hphase, rfl, rfl⟩ := h
  have hpass : failedCheck .s2vAbsorb s.regs = none := by
    rw [failedCheck_absorb_of_chain hphase, if_neg (by omega)]
  obtain ⟨t, ht, hreset, hpending, hregs⟩ := hostCommandOn_of_passes hr rfl hpass v
  rw [commandEffect_absorb_regs] at hregs
  exact ⟨t, ht, hreset, hpending, by rw [hregs]; exact hphase, by rw [hregs]; rfl,
    by rw [hregs]; exact toNat_hcnt_succ hn.le⟩

/-- The absorb at the limit ends the procedure in InvalidInput (41_s2v.md R97; 60_exceptions.md R138). -/
theorem ChainAt.hostCommandOn_absorb_at_limit (h : ChainAt s d 126 p) (v : Block) :
    hostCommandOn v .s2vAbsorb s = .error .invalidInput := by
  obtain ⟨hr, -, hphase, -, hcount⟩ := h
  have hfail : failedCheck .s2vAbsorb ((s.respond .written).setA v).regs = some .ehcnt := by
    exact (failedCheck_absorb_of_chain hphase).trans (if_pos hcount)
  have hr' : ((s.respond .written).setA v).inReset = false := hr
  rw [hostCommandOn_eq hr, hostCommand_eq hr' rfl, commandOutcome_of_fails hfail, fail_err]
  rfl

theorem ChainAt.hostCommandOn_xorend (h : ChainAt s d n p) (v : Block) :
    ∃ t, hostCommandOn v .s2vXorend s = .ok t ∧ ClosedAt t (v ^^^ d) n p := by
  obtain ⟨hr, rfl, hphase, rfl, rfl⟩ := h
  obtain ⟨t, ht, hreset, hpending, hregs⟩ :=
    hostCommandOn_of_passes hr rfl (failedCheck_xorend_of_chain hphase) v
  rw [commandEffect_xorend_regs] at hregs
  exact ⟨t, ht, hreset, hpending, by rw [hregs], by rw [hregs]; rfl, by rw [hregs]; rfl⟩

theorem ChainAt.hostCommandOn_padend (h : ChainAt s d n p) {len : Nat} (hlen : len < 16) (v : Block) :
    ∃ t, hostCommandOn v (.s2vPadend (BitVec.ofNat 5 len)) s = .ok t ∧ ClosedAt t (pad v len ^^^ dbl d) n p := by
  obtain ⟨hr, rfl, hphase, rfl, rfl⟩ := h
  have hfield : (BitVec.ofNat 5 len).toNat = len := Nat.mod_eq_of_lt (by omega)
  have hshort : (BitVec.ofNat 5 len).toNat < 16 := hfield.trans_lt hlen
  have hwf : (Instr.s2vPadend (BitVec.ofNat 5 len)).wf = true := decide_eq_true hshort
  obtain ⟨t, ht, hreset, hpending, hregs⟩ :=
    hostCommandOn_of_passes hr hwf (failedCheck_padend_of_chain hshort hphase) v
  rw [commandEffect_padend_regs, hfield] at hregs
  exact ⟨t, ht, hreset, hpending, by rw [hregs], by rw [hregs]; rfl, by rw [hregs]; rfl⟩

/-! ### The absorb loop -/

variable (mac : List Byte → Block)

theorem hostAbsorbs_cons (x : List Byte) (headers : List (List Byte)) (s : State) :
    hostAbsorbs mac (x :: headers) s = hostCommandOn (mac x) .s2vAbsorb s >>= hostAbsorbs mac headers := rfl

/-- Absorbs within the limit fold the MACs of the headers into the accumulator (41_s2v.md R90 step 2, R96). -/
theorem ChainAt.hostAbsorbs_of_room (h : ChainAt s d n p) (headers : List (List Byte))
    (hroom : n + headers.length ≤ 126) :
    ∃ t, hostAbsorbs mac headers s = .ok t ∧
      ChainAt t (headers.foldl (fun d x => dbl d ^^^ mac x) d) (n + headers.length) p := by
  induction headers generalizing s d n with
  | nil => exact ⟨s, rfl, h⟩
  | cons x headers ih =>
    rw [List.length_cons] at hroom
    obtain ⟨u, hu, hopen⟩ := h.hostCommandOn_absorb (by omega) (mac x)
    obtain ⟨t, ht, hend⟩ := ih hopen (by omega)
    refine ⟨t, ?_, ?_⟩
    · rw [hostAbsorbs_cons, hu]
      exact ht
    · rwa [List.length_cons, List.foldl_cons, Nat.add_comm headers.length 1, ← Nat.add_assoc]

/-- With more headers than room, some absorb meets the limit. -/
theorem ChainAt.hostAbsorbs_too_many (h : ChainAt s d n p) (headers : List (List Byte)) (hn : n ≤ 126)
    (hmany : 126 < n + headers.length) : hostAbsorbs mac headers s = .error .invalidInput := by
  induction headers generalizing s d n with
  | nil => exact absurd hmany (Nat.not_lt.2 hn)
  | cons x headers ih =>
    rw [List.length_cons] at hmany
    rw [hostAbsorbs_cons]
    rcases Nat.lt_or_eq_of_le hn with hlt | rfl
    · obtain ⟨u, hu, hopen⟩ := h.hostCommandOn_absorb hlt (mac x)
      rw [hu]
      exact ih hopen hlt (by omega)
    · rw [h.hostCommandOn_absorb_at_limit]
      rfl

/-! ### The procedure -/

/-- S2V.INIT and the absorbs leave the accumulator of S2V_ref in `D` (41_s2v.md R98). -/
theorem host_chain_reaches_reference (hr : s.inReset = false) {headers : List (List Byte)}
    (hroom : headers.length ≤ 126) :
    ∃ u v, hostCommandOn (mac (List.replicate 16 0)) .s2vInit s = .ok u ∧ hostAbsorbs mac headers u = .ok v ∧
      ChainAt v (s2vChain mac headers) headers.length s.pending := by
  obtain ⟨u, hu, hopen⟩ := hostCommandOn_init hr (mac (List.replicate 16 0))
  obtain ⟨v, hv, hchain⟩ := hopen.hostAbsorbs_of_room mac headers (by omega)
  exact ⟨u, v, hu, hv, by rwa [Nat.zero_add] at hchain⟩

variable {mac} {headers : List (List Byte)} {message : List Byte} {u v t : State}

theorem ClosedAt.respond {r : Block} (h : ClosedAt s r n p) (x : Response) : ClosedAt (s.respond x) r n p :=
  ⟨h.released, h.pending, h.phase, h.result, h.count⟩

/-- The host closes the chain over a message of 16 bytes or more, and reads `R` (41_s2v.md R96). -/
theorem s2vHost_of_long {r : Block} (hlong : 16 ≤ message.length)
    (hu : hostCommandOn (mac (List.replicate 16 0)) .s2vInit s = .ok u) (hv : hostAbsorbs mac headers u = .ok v)
    (ht : hostCommandOn (blockOfBytes (message.drop (message.length - 16))) .s2vXorend v = .ok t)
    (hclosed : ClosedAt t r n p) :
    ∃ w, s2vHost mac headers message s = .ok (mac (message.take (message.length - 16) ++ blockBytes r), w) ∧
      ClosedAt w r n p := by
  refine ⟨_, ?_, hclosed.respond (.data (wordOf r 3))⟩
  simp only [s2vHost, hu, hv, ht, hostReadR_eq hclosed.released, hclosed.result, bind, Except.bind, if_pos hlong]

/-- The host closes the chain over a message below 16 bytes, and reads `R` (41_s2v.md R96). -/
theorem s2vHost_of_short {r : Block} (hshort : message.length < 16)
    (hu : hostCommandOn (mac (List.replicate 16 0)) .s2vInit s = .ok u) (hv : hostAbsorbs mac headers u = .ok v)
    (ht : hostCommandOn (blockOfBytes message) (.s2vPadend (BitVec.ofNat 5 message.length)) v = .ok t)
    (hclosed : ClosedAt t r n p) :
    ∃ w, s2vHost mac headers message s = .ok (mac (blockBytes r), w) ∧ ClosedAt w r n p := by
  refine ⟨_, ?_, hclosed.respond (.data (wordOf r 3))⟩
  simp only [s2vHost, hu, hv, ht, hostReadR_eq hclosed.released, hclosed.result, bind, Except.bind,
    if_neg (Nat.not_le.2 hshort)]

/-- What the final command leaves in `R`: the last 16 bytes XOR `D`, or the padded message XOR `dbl(D)` (41_s2v.md R94 to R96). -/
def finalBlock (d : Block) (message : List Byte) : Block :=
  if 16 ≤ message.length then blockOfBytes (message.drop (message.length - 16)) ^^^ d
  else pad (blockOfBytes message) message.length ^^^ dbl d

theorem finalBlock_of_long (d : Block) (hlong : 16 ≤ message.length) :
    finalBlock d message = blockOfBytes (message.drop (message.length - 16)) ^^^ d := if_pos hlong

theorem finalBlock_of_short (d : Block) (hshort : message.length < 16) :
    finalBlock d message = pad (blockOfBytes message) message.length ^^^ dbl d := if_neg (Nat.not_le.2 hshort)

/-- S2V_host ends with the tag of S2V_ref, the chain closed and its final block in `R` (41_s2v.md R98). -/
theorem s2vHost_eq_s2vRef (mac : List Byte → Block) (message : List Byte) (hr : s.inReset = false)
    (hroom : headers.length ≤ 126) :
    ∃ t, s2vHost mac headers message s = .ok (s2vRef mac headers message, t) ∧
      ClosedAt t (finalBlock (s2vChain mac headers) message) headers.length s.pending := by
  obtain ⟨u, v, hu, hv, hopen⟩ := host_chain_reaches_reference mac hr hroom
  rcases Nat.lt_or_ge message.length 16 with hshort | hlong
  · obtain ⟨t, ht, hclosed⟩ := hopen.hostCommandOn_padend hshort (blockOfBytes message)
    rw [s2vRef, s2vFinal, if_neg (Nat.not_le.2 hshort), finalBlock_of_short _ hshort]
    exact s2vHost_of_short hshort hu hv ht hclosed
  · obtain ⟨t, ht, hclosed⟩ :=
      hopen.hostCommandOn_xorend (blockOfBytes (message.drop (message.length - 16)))
    rw [s2vRef, s2vFinal, if_pos hlong, finalBlock_of_long _ hlong]
    exact s2vHost_of_long hlong hu hv ht hclosed

/-- Settles O49: the procedure by `s2vHost_eq_s2vRef`, the accumulator by `host_chain_reaches_reference`. -/
theorem hostS2vComputesReference : Obligations.HostS2vComputesReference := by
  unfold Obligations.HostS2vComputesReference
  intro mac headers message s hr hroom
  obtain ⟨t, ht, hclosed⟩ := s2vHost_eq_s2vRef mac message hr hroom
  obtain ⟨u, v, hu, hv, hopen⟩ := host_chain_reaches_reference mac hr hroom
  exact ⟨t, ht, hclosed.released, hclosed.pending, hclosed.phase, hclosed.count,
    fun hlong => hclosed.result.trans (finalBlock_of_long _ hlong),
    fun hshort => hclosed.result.trans (finalBlock_of_short _ hshort), u, v, hu, hv, hopen.acc⟩

/-- Settles O50: from the open chain of S2V.INIT, `hostAbsorbs_too_many` ends the procedure. -/
theorem tooManyHeadersIsInvalidInput : Obligations.TooManyHeadersIsInvalidInput := by
  unfold Obligations.TooManyHeadersIsInvalidInput
  intro mac headers message s hr hmany
  obtain ⟨u, hu, hopen⟩ := hostCommandOn_init hr (mac (List.replicate 16 0))
  have habsorbs := hopen.hostAbsorbs_too_many mac headers (Nat.zero_le 126) (by omega)
  simp only [s2vHost, hu, habsorbs, bind, Except.bind]

end Sys2Proof.Machine

/-! The IV mask: `ivmask` bit by bit, by bytes and by bus words, and its laws (42_seal_open_units.md R110, R112). -/

namespace Sys2Proof.Machine

variable {u v x : Block}

/-! ### The cleared bits -/

theorem getLsbD_ivclr {k : Nat} (hk : k < 128) : ivclr.getLsbD k = !decide (k = 63 ∨ k = 31) := by
  revert k
  decide

/-- `ivmask` clears bits 63 and 31 of the value (42_seal_open_units.md R110). -/
theorem getLsbD_ivmask (v : Block) (k : Nat) :
    (ivmask v).getLsbD k = (v.getLsbD k && !decide (k = 63 ∨ k = 31)) := by
  rw [ivmask, BitVec.getLsbD_and]
  by_cases hk : k < 128
  · rw [getLsbD_ivclr hk]
  · rw [BitVec.getLsbD_of_ge v k (Nat.le_of_not_lt hk), Bool.false_and, Bool.false_and]

theorem getLsbD_ivmask_of_kept (v : Block) {k : Nat} (h63 : k ≠ 63) (h31 : k ≠ 31) :
    (ivmask v).getLsbD k = v.getLsbD k := by
  rw [getLsbD_ivmask]
  simp [h63, h31]

/-- Bits 63 and 31 of the value are bit 7 of bytes 8 and 12 (00_scope.md R10, R11). -/
theorem getLsbD_byteOf_ivmask (v : Block) (i : Fin 16) {k : Nat} (hk : k < 8) :
    (byteOf (ivmask v) i).getLsbD k = ((byteOf v i).getLsbD k && !decide ((i = 8 ∨ i = 12) ∧ k = 7)) := by
  have hbit : 8 * (15 - i.val) + k = 63 ∨ 8 * (15 - i.val) + k = 31 ↔ (i = 8 ∨ i = 12) ∧ k = 7 := by
    rw [Fin.ext_iff, Fin.ext_iff]
    change _ ↔ (i.val = 8 ∨ i.val = 12) ∧ k = 7
    omega
  rw [getLsbD_byteOf, getLsbD_byteOf, getLsbD_ivmask, decide_eq_decide.2 hbit, Bool.and_assoc]

/-- Bits 63 and 31 of the value are bit 31 of words 2 and 3 (20_memory.md R45). -/
theorem getLsbD_wordOf_ivmask (v : Block) (w : Fin 4) {k : Nat} (hk : k < 32) :
    (wordOf (ivmask v) w).getLsbD k = ((wordOf v w).getLsbD k && !decide ((w = 2 ∨ w = 3) ∧ k = 31)) := by
  have hbit : 96 - 32 * w.val + k = 63 ∨ 96 - 32 * w.val + k = 31 ↔ (w = 2 ∨ w = 3) ∧ k = 31 := by
    rw [Fin.ext_iff, Fin.ext_iff]
    change _ ↔ (w.val = 2 ∨ w.val = 3) ∧ k = 31
    omega
  rw [getLsbD_wordOf, getLsbD_wordOf, getLsbD_ivmask, decide_eq_decide.2 hbit, Bool.and_assoc]

/-- Settles O29: `getLsbD_ivmask`, read by bytes and by bus words. -/
theorem ivmaskClearsTwoBits : Obligations.IvmaskClearsTwoBits :=
  fun v => ⟨rfl, fun i _ hk => getLsbD_byteOf_ivmask v i hk, getLsbD_ivmask v,
    fun w _ hk => getLsbD_wordOf_ivmask v w hk⟩

/-! ### The laws -/

theorem ivmask_ivmask (v : Block) : ivmask (ivmask v) = ivmask v := by
  rw [ivmask, ivmask, BitVec.and_assoc, BitVec.and_self]

theorem ivmask_xor (a b : Block) : ivmask (a ^^^ b) = ivmask a ^^^ ivmask b := by
  refine BitVec.eq_of_getLsbD_eq fun k _ => ?_
  simp only [getLsbD_ivmask, BitVec.getLsbD_xor, Bool.and_xor_distrib_right]

theorem ivmask_and (a b : Block) : ivmask (a &&& b) = ivmask a &&& ivmask b := by
  rw [ivmask, ivmask, ivmask, BitVec.and_assoc a ivclr, ← BitVec.and_assoc ivclr b, BitVec.and_comm ivclr b,
    BitVec.and_assoc b, BitVec.and_self, BitVec.and_assoc a]

/-! ### The preimages -/

/-- The block with `hi` in bit 63, `lo` in bit 31 and zeros elsewhere. -/
def clearedBits (hi lo : Bool) : Block :=
  (BitVec.ofBool hi).setWidth 128 <<< 63 ||| (BitVec.ofBool lo).setWidth 128 <<< 31

theorem getLsbD_clearedBits (hi lo : Bool) {k : Nat} (hk : k < 128) :
    (clearedBits hi lo).getLsbD k = (decide (k = 63) && hi || decide (k = 31) && lo) := by
  revert hi lo k
  decide

/-- What `ivmask` maps to 0. -/
def ivmaskKernel : List Block :=
  [clearedBits false false, clearedBits false true, clearedBits true false, clearedBits true true]

theorem mem_ivmaskKernel : x ∈ ivmaskKernel ↔ ∃ hi lo, x = clearedBits hi lo := by
  simp [ivmaskKernel, Bool.exists_bool, or_assoc]

/-- A block that `ivmask` maps to 0 is made of its bits 63 and 31. -/
theorem ivmask_eq_zero_iff : ivmask x = 0 ↔ x ∈ ivmaskKernel := by
  constructor
  · intro h
    refine mem_ivmaskKernel.2 ⟨x.getLsbD 63, x.getLsbD 31, BitVec.eq_of_getLsbD_eq fun k hk => ?_⟩
    rw [getLsbD_clearedBits _ _ hk]
    by_cases h63 : k = 63
    · simp [h63]
    by_cases h31 : k = 31
    · simp [h31]
    rw [← getLsbD_ivmask_of_kept x h63 h31, h]
    simp [h63, h31]
  · intro h
    obtain ⟨hi, lo, rfl⟩ := mem_ivmaskKernel.1 h
    revert hi lo
    decide

/-- `ivmask` being linear, the preimages of its value at `v` are `v` shifted by its kernel. -/
def ivmaskPreimages (v : Block) : List Block := ivmaskKernel.map (v ^^^ ·)

theorem nodup_ivmaskPreimages (v : Block) : (ivmaskPreimages v).Nodup := by
  have hkernel : ivmaskKernel.Nodup := by decide
  exact hkernel.map fun _ _ => (BitVec.xor_right_inj v).1

theorem mem_ivmaskPreimages : u ∈ ivmaskPreimages v ↔ ivmask u = ivmask v := by
  have hshift (m : Block) : v ^^^ m = u ↔ m = u ^^^ v := by
    constructor
    · rintro rfl
      rw [BitVec.xor_comm _ v, xor_cancel_left]
    · rintro rfl
      rw [BitVec.xor_comm u v, xor_cancel_left]
  have hkernel : u ∈ ivmaskPreimages v ↔ u ^^^ v ∈ ivmaskKernel := by
    simp only [ivmaskPreimages, List.mem_map, hshift, exists_eq_right]
  rw [hkernel, ← ivmask_eq_zero_iff, ivmask_xor]
  exact BitVec.xor_eq_zero_iff

/-- Two preimages of one output agree in every bit that `ivmask` keeps. -/
theorem getLsbD_eq_of_ivmask_eq (h : ivmask u = ivmask v) {k : Nat} (h63 : k ≠ 63) (h31 : k ≠ 31) :
    u.getLsbD k = v.getLsbD k := by
  rw [← getLsbD_ivmask_of_kept u h63 h31, h, getLsbD_ivmask_of_kept v h63 h31]

/-- Settles O30: the laws bit by bit, and the four preimages `ivmaskPreimages`. -/
theorem ivmaskLaws : Obligations.IvmaskLaws :=
  ⟨ivmask_ivmask, fun v _ => getLsbD_ivmask_of_kept v, ivmask_xor, ivmask_and,
    fun v => ⟨ivmaskPreimages v, rfl, nodup_ivmaskPreimages v, fun _ => mem_ivmaskPreimages.symm,
      fun _ hu _ => getLsbD_eq_of_ivmask_eq (mem_ivmaskPreimages.1 hu)⟩⟩

end Sys2Proof.Machine

/-! The comparator: its accumulator and its verdict (42_seal_open_units.md R113). -/

namespace Sys2Proof.Machine

theorem getLsbD_foldl_or {α : Type} (f : α → Byte) (l : List α) (z : Byte) (k : Nat) :
    (l.foldl (fun acc i => acc ||| f i) z).getLsbD k = true ↔
      z.getLsbD k = true ∨ ∃ i ∈ l, (f i).getLsbD k = true := by
  induction l generalizing z with
  | nil => simp
  | cons x l ih =>
    rw [List.foldl_cons, ih, BitVec.getLsbD_or, Bool.or_eq_true, List.exists_mem_cons_iff, or_assoc]

/-- A bit of the accumulator is set when some pair of bytes differs in it (42_seal_open_units.md R113). -/
theorem getLsbD_ctAcc (a b : Block) (k : Nat) :
    (ctAcc a b).getLsbD k = true ↔ ∃ i : Fin 16, (byteOf a i ^^^ byteOf b i).getLsbD k = true := by
  rw [ctAcc, getLsbD_foldl_or]
  simp

theorem ctEq_eq_decide (a b : Block) : ctEq a b = decide (a = b) := by
  have hbytes : (∀ i : Fin 16, byteOf a i = byteOf b i) ↔ a = b := ⟨block_ext, fun h _ => h ▸ rfl⟩
  rw [Bool.eq_iff_iff, ctEq_iff, hbytes, decide_eq_true_iff]

/-- Settles O31: `getLsbD_ctAcc` for the accumulator, `ctEq_eq_decide` for the verdict. -/
theorem comparatorIsEquality : Obligations.ComparatorIsEquality :=
  fun a b => ⟨getLsbD_ctAcc a b, rfl, (ctEq_eq_decide a b).trans (decide_eq_decide.2 BitVec.toNat_inj.symm)⟩

end Sys2Proof.Machine

/-! The commands IVMASK and CMP: their words, failures, results and examples (42_seal_open_units.md R111, R114). -/

namespace Sys2Proof.Machine

theorem ivmask_of_bits_clear {v : Block} (h63 : v.getLsbD 63 = false) (h31 : v.getLsbD 31 = false) :
    ivmask v = v := by
  refine BitVec.eq_of_getLsbD_eq fun k _ => ?_
  rw [getLsbD_ivmask]
  by_cases hk : k = 63 ∨ k = 31
  · rcases hk with rfl | rfl
    · rw [h63, Bool.false_and]
    · rw [h31, Bool.false_and]
  · rw [decide_eq_false hk, Bool.not_false, Bool.and_true]

/-- Settles O20: the result is `exec_eq_commandOutcome`, the unchanged blocks `ivmask_of_bits_clear`. -/
theorem ivmaskMasksAIntoR : Obligations.IvmaskMasksAIntoR := by
  unfold Obligations.IvmaskMasksAIntoR
  exact ⟨by decide, illegalFieldsFail_of_no_length (by decide), exec_eq_commandOutcome .ivmask,
    fun _ => ivmask_of_bits_clear, by decide, by decide, by decide⟩

/-- CMP writes into `EQ` whether the two operands are the same value (42_seal_open_units.md R114). -/
theorem exec_cmp (s : State) : exec .cmp s =
    .next { s with regs := { s.regs with eq := decide (s.regs.a = s.regs.b), err := .ok } } := by
  rw [exec_eq_commandOutcome, ← ctEq_eq_decide]
  rfl

theorem ctEq_self (v : Block) : ctEq v v = true := by
  rw [ctEq_eq_decide, decide_eq_true rfl]

/-- No difference goes unseen, however its bytes might cancel. -/
theorem ctEq_xor_of_ne_zero (v : Block) {m : Block} (hm : m ≠ 0) : ctEq v (v ^^^ m) = false := by
  have hne : v ≠ v ^^^ m := fun h => hm (xor_left_eq_self_iff.1 h.symm)
  rw [ctEq_eq_decide, decide_eq_false hne]

theorem one_shiftLeft_ne_zero (k : Fin 128) : 1#128 <<< k.val ≠ 0 := by
  revert k
  decide

/-- Settles O21: `exec_cmp`, and `ctEq_xor_of_ne_zero` for the single bits and the pair that would cancel. -/
theorem cmpComparesAAndB : Obligations.CmpComparesAAndB := by
  unfold Obligations.CmpComparesAAndB
  exact ⟨by decide, illegalFieldsFail_of_no_length (by decide), exec_cmp,
    fun v k => ctEq_xor_of_ne_zero v (one_shiftLeft_ne_zero k),
    fun v => ⟨ctEq_self v, ctEq_xor_of_ne_zero v (by decide)⟩⟩

end Sys2Proof.Machine

/-! The host procedures Seal and Open on CORE (42_seal_open_units.md R116, R117; 60_exceptions.md R138). -/

namespace Sys2Proof.Machine

variable {s : State}

/-! ### The counter block, and Seal -/

/-- `LDA iv; IVMASK; RDR` gives the masked tag. -/
theorem hostCounterBlock_eq (hr : s.inReset = false) (iv : Block) :
    ∃ t, hostCounterBlock iv s = .ok (ivmask iv, t) ∧ t.inReset = false := by
  obtain ⟨t, ht, hreset, -, hregs⟩ := hostCommandOn_of_passes (i := .ivmask) hr rfl rfl iv
  have hresult : t.regs.r = ivmask iv := by rw [hregs, commandEffect_ivmask_regs]; rfl
  refine ⟨t.respond (.data (wordOf (ivmask iv) 3)), ?_, hreset⟩
  simp only [hostCounterBlock, ht, hostReadR_eq hreset, hresult, bind, Except.bind]

/-- Settles O51: the tag by `s2vHost_eq_s2vRef`, its counter block by `hostCounterBlock_eq`. -/
theorem sealEmitsTagAndCiphertext : Obligations.SealEmitsTagAndCiphertext := by
  unfold Obligations.SealEmitsTagAndCiphertext
  intro mac ctr headers plaintext s hr hroom
  obtain ⟨u, hu, hclosed⟩ := s2vHost_eq_s2vRef mac plaintext hr hroom
  obtain ⟨t, ht, -⟩ := hostCounterBlock_eq hclosed.released (s2vRef mac headers plaintext)
  exact ⟨t, by simp only [sealHost, hu, ht, bind, Except.bind]⟩

/-! ### The received tag and body -/

theorem length_blockBytes (x : Block) : (blockBytes x).length = 16 := by
  rw [blockBytes, List.length_map, List.length_finRange]

theorem blockOfBytes_blockBytes (x : Block) : blockOfBytes (blockBytes x) = x := by
  refine block_ext fun i => ?_
  rw [blockOfBytes, byteOf_ofBytes, List.getD_eq_getElem _ _ (by rw [length_blockBytes]; exact i.isLt)]
  simp [blockBytes]

theorem take_blockBytes_append (x : Block) (body : List Byte) : (blockBytes x ++ body).take 16 = blockBytes x :=
  List.take_left' (length_blockBytes x)

theorem drop_blockBytes_append (x : Block) (body : List Byte) : (blockBytes x ++ body).drop 16 = body :=
  List.drop_left' (length_blockBytes x)

/-! ### The comparison, and Open -/

theorem hostRun_lda_ldb (hr : s.inReset = false) (x y : Block) :
    ∃ t, hostRun (lda x ++ ldb y) s = .ok t ∧ t.inReset = false ∧ t.regs.a = x ∧ t.regs.b = y := by
  have hr' : ((s.respond .written).setA x).inReset = false := hr
  refine ⟨(((s.respond .written).setA x).respond .written).setB y, ?_, hr, rfl, rfl⟩
  rw [hostRun_lda hr, ← List.append_nil (ldb y), hostRun_ldb hr', hostRun]

/-- The host loads two blocks, issues CMP and reads in STATUS whether they are the same (42_seal_open_units.md R117). -/
theorem host_compare (hr : s.inReset = false) (x y : Block) :
    ∃ u v w t, hostRun (lda x ++ ldb y) s = .ok u ∧ hostCommand .cmp u = .ok v ∧
      hostRead 0x04 v = .ok (w, t) ∧ eqOfStatus w = decide (x = y) := by
  obtain ⟨u, hu, hreset, ha, hb⟩ := hostRun_lda_ldb hr x y
  obtain ⟨v, hv, hreset', -, hregs⟩ := hostCommand_of_passes (i := .cmp) hreset rfl rfl
  have hverdict : v.regs.eq = decide (x = y) := by
    rw [hregs, commandEffect_cmp_regs, ha, hb]
    exact ctEq_eq_decide x y
  exact ⟨u, v, _, _, hu, hv, hostRead_eq hreset' (by decide), (statusWord_eq v.regs).trans hverdict⟩

variable (mac : List Byte → Block) (ctr : Block → List Byte → List Byte) {headers : List (List Byte)}

theorem openHost_of_short {c : List Byte} (hshort : c.length < 16) :
    openHost mac ctr headers c s = .error .invalidInput := if_pos hshort

/-- Open decrypts, recomputes the tag over the candidate, and lets the comparison decide (42_seal_open_units.md R117). -/
theorem openHost_eq (hr : s.inReset = false) (hroom : headers.length ≤ 126) (iv : Block) (body : List Byte) :
    ∃ t, openHost mac ctr headers (blockBytes iv ++ body) s =
      if s2vRef mac headers (ctr (ivmask iv) body) = iv then .ok (ctr (ivmask iv) body, t)
      else .error .authenticationFailure := by
  have hlong : ¬ (blockBytes iv ++ body).length < 16 := by
    rw [List.length_append, length_blockBytes]
    omega
  obtain ⟨s₁, hcounter, hr₁⟩ := hostCounterBlock_eq hr iv
  obtain ⟨s₂, htag, hclosed⟩ := s2vHost_eq_s2vRef mac (ctr (ivmask iv) body) hr₁ hroom
  obtain ⟨u, v, w, t, hload, hcmp, hread, hverdict⟩ :=
    host_compare hclosed.released (s2vRef mac headers (ctr (ivmask iv) body)) iv
  refine ⟨t, ?_⟩
  simp only [openHost, if_neg hlong, take_blockBytes_append, drop_blockBytes_append, blockOfBytes_blockBytes,
    hcounter, htag, hload, hcmp, hread, hverdict, decide_eq_true_eq, bind, Except.bind]

/-- Settles O52: `openHost_of_short` below 16 bytes, and the two outcomes of `openHost_eq`. -/
theorem openReleasesPlaintextOnlyOnMatch : Obligations.OpenReleasesPlaintextOnlyOnMatch := by
  unfold Obligations.OpenReleasesPlaintextOnlyOnMatch
  intro mac ctr headers iv body short s hr hroom
  obtain ⟨t, hopen⟩ := openHost_eq mac ctr hr hroom iv body
  exact ⟨openHost_of_short mac ctr, fun hmatch => ⟨t, hopen.trans (if_pos hmatch)⟩,
    fun hmismatch => hopen.trans (if_neg hmismatch)⟩

end Sys2Proof.Machine

/-! The control commands NOP and ZERO: their words, failures and results (43_control.md R120, R121). -/

namespace Sys2Proof.Machine

/-- NOP has no check to fail and writes `ERR` alone (43_control.md R120). -/
theorem exec_nop (s : State) : exec .nop s = .next { s with regs := { s.regs with err := .ok } } :=
  exec_of_passes rfl

/-- Settles O22: the result is `exec_nop`; `exec_absorb_of_closed` sets the `ESTKY` that NOP then keeps. -/
theorem nopClearsOnlyErr : Obligations.NopClearsOnlyErr := by
  unfold Obligations.NopClearsOnlyErr
  exact ⟨by decide, illegalFieldsFail_of_no_length (by decide), exec_nop,
    fun s hphase => ⟨s.withError .ephase, _, exec_absorb_of_closed hphase, rfl, exec_nop _, rfl, rfl⟩⟩

/-- ZERO has no check to fail and leaves nothing of the registers (43_control.md R121). -/
theorem exec_zero (s : State) : exec .zero s = .next { s with regs := Regs.reset } :=
  exec_of_passes rfl

/-- The registers at reset read as the STATUS word 0 (10_state.md R28). -/
theorem statusWord_reset : statusWord Regs.reset = 0 := by decide

/-- Settles O23: `exec_zero` once and again, and STATUS by `statusWord_reset`. -/
theorem zeroErasesEveryRegister : Obligations.ZeroErasesEveryRegister := by
  unfold Obligations.ZeroErasesEveryRegister
  exact ⟨by decide, illegalFieldsFail_of_no_length (by decide), exec_zero,
    fun s => ⟨{ s with regs := Regs.reset }, exec_zero s, exec_zero _, rfl,
      (busRead_status Regs.reset).trans statusWord_reset⟩⟩

end Sys2Proof.Machine

/-! The failures of a command: which code it reports, what it changes, and that the bus goes on (60_exceptions.md R132, R133). -/

namespace Sys2Proof.Machine

variable {s t : State} {i : Instr} {f : Failure} {w : Word}

/-! ### The reported code -/

/-- The checks left to a legal command are those of the state: its length has passed (60_exceptions.md R133). -/
theorem failedCheck_of_wf (hi : i.wf = true) (c : Regs) :
    failedCheck i c =
      if (opcodeOf i = 0x4 ∨ opcodeOf i = 0x5 ∨ opcodeOf i = 0x6) ∧ c.phase ≠ .chain then some .ephase
      else if opcodeOf i = 0x4 ∧ c.hcnt.toNat = 126 then some .ehcnt
      else none := by
  have hlen : (lengthOf i).toNat < 16 := (Instr.wf_iff i).1 hi
  cases i with
  | pad n => exact failedCheck_pad_of_lt hlen c
  | s2vAbsorb =>
    by_cases hphase : c.phase = .chain
    · simp [failedCheck_absorb_of_chain hphase, opcodeOf, hphase]
    · simp [failedCheck, opcodeOf, hphase]
  | s2vXorend => simp [failedCheck, opcodeOf]
  | s2vPadend n =>
    have hshort : n.toNat < 16 := hlen
    simp [failedCheck, opcodeOf, hshort]
  | nop | dbl | s2vInit | ivmask | cmp | zero => rfl

/-- A command reports the check it fails, or `OK`. -/
theorem commandOutcome_err (i : Instr) (s : State) :
    (commandOutcome i s).regs.err = (failedCheck i s.regs).elim .ok .failed := by
  rcases commandOutcome_cases i s with ⟨f, hf, e⟩ | ⟨hpass, e⟩
  · rw [e, hf, fail_err]
    rfl
  · rw [e, hpass, commandEffect_err]
    rfl

/-- Settles O11: the checks of the word are O7's, those of the state `failedCheck_of_wf`. -/
theorem errorCodeFollowsCheckOrder : Obligations.ErrorCodeFollowsCheckOrder := by
  unfold Obligations.ErrorCodeFollowsCheckOrder
  intro w s
  obtain ⟨heill, helen, hlegal⟩ := illegalWordsFailWithEillOrElen w s
  rw [← ite_or, ← ite_or]
  split
  case isTrue hillegal => exact ⟨_, heill (or_assoc.1 hillegal), rfl⟩
  case isFalse hfields =>
    push Not at hfields
    obtain ⟨⟨hrsv, hop⟩, hnolength⟩ := hfields
    split
    case isTrue htoolong =>
      obtain ⟨htakes, hlong⟩ := htoolong
      exact ⟨_, helen hrsv htakes hlong, rfl⟩
    case isFalse hlength =>
      have hshort : lenField w = 0 ∨ ((opField w = 0x2 ∨ opField w = 0x6) ∧ (lenField w).toNat < 16) := by
        rw [← Nat.not_le]
        tauto
      obtain ⟨i, hdecode, hi, hexec⟩ := hlegal hrsv hop hshort
      obtain ⟨-, hopcode, -, -⟩ := decode_ok_iff.1 hdecode
      refine ⟨_, hexec.trans (exec_eq_commandOutcome i s), ?_⟩
      rw [commandOutcome_err, failedCheck_of_wf hi, hopcode, apply_ite (Option.elim · _ _),
        apply_ite (Option.elim · _ _)]
      rfl

/-! ### What a failure changes -/

/-- The two forms of a failure's effect (60_exceptions.md R132). -/
theorem fail_eq_ite (f : Failure) (s : State) : fail f s = if f = .ehcnt then s.aborted else s.withError f := by
  cases f <;> rfl

/-- A word that leaves a failure code has failed with that code. -/
theorem eq_fail_of_execute (h : execute w s = .next t) (herr : t.regs.err = .failed f) : t = fail f s := by
  have hfailed : ∃ g, t = fail g s := by
    rcases execute_cases w s with ⟨e, -, hex⟩ | ⟨i, -, hex⟩ <;> rw [hex] at h
    · cases h
      exact ⟨_, rfl⟩
    · rw [eq_commandOutcome_of_exec h] at herr ⊢
      rcases commandOutcome_cases i s with ⟨g, -, e⟩ | ⟨-, e⟩
      · exact ⟨g, e⟩
      · rw [e, commandEffect_err] at herr
        cases herr
  obtain ⟨g, rfl⟩ := hfailed
  rw [fail_err] at herr
  cases herr
  rfl

/-! ### The next access -/

theorem busWrite_pending {off : BitVec 8} (h : busWrite off w s = .next t) : t.pending = s.pending := by
  rcases busWrite_cases off w s with ⟨-, e⟩ | ⟨k, -, e⟩ | ⟨k, -, e⟩ | ⟨-, e⟩ <;> rw [e] at h
  · obtain ⟨u, hex, -, hpending, -⟩ := execute_completes w s
    cases hex.symm.trans h
    exact hpending
  all_goals
    cases h
    rfl

/-- Out of reset, an admitted access is served, whatever the registers hold (20_memory.md R43). -/
theorem step_of_admitted {acc : Access} {rest : List Input} (hr : s.inReset = false)
    (hp : s.pending = .access acc :: rest) (hacc : acc.admitted = true) :
    ∃ u, step s = .next u ∧ u.pending = rest := by
  cases acc with
  | read width off =>
    obtain ⟨rfl, hoff⟩ : width = .w32 ∧ off.toNat % 4 = 0 := by simpa [Access.admitted] using hacc
    exact ⟨_, step_read hr hp hoff, rfl⟩
  | write width off w =>
    obtain ⟨rfl, hoff⟩ : width = .w32 ∧ off.toNat % 4 = 0 := by simpa [Access.admitted] using hacc
    obtain ⟨u, hu⟩ := busWrite_completes w (s.afterWrite rest) off
    exact ⟨u, (step_write hr hp hoff).trans hu, busWrite_pending hu⟩

/-- Settles O12: the state is `fail`'s by `eq_fail_of_execute`, which leaves the bus side alone, so `step_of_admitted` applies. -/
theorem failureChangesOnlyErrorFields : Obligations.FailureChangesOnlyErrorFields := by
  unfold Obligations.FailureChangesOnlyErrorFields
  refine ⟨fun w s t f h herr => (eq_fail_of_execute h herr).trans (fail_eq_ite f s), ?_⟩
  intro w s t f rest hnext h herr
  rw [step_of_commandNext hnext] at h
  obtain rfl := eq_fail_of_execute h herr
  refine ⟨fail_eq_ite f _, fun acc more hrest hacc => step_of_admitted ?_ ?_ hacc⟩
  · exact (fail_inReset f).trans hnext.1
  · exact (fail_pending f).trans hrest

end Sys2Proof.Machine

/-! Reset, and runs on admitted inputs: what each input does as a step, and that a host which makes only admitted accesses out of reset is never stopped (70_reset_and_hazards.md R150, R151, R158). -/

namespace Sys2Proof.Machine

variable {s t : State} {acc : Access} {rest : List Input}

/-! ### The step on no input, on the edges of reset and on an access -/

theorem step_idle (hp : s.pending = []) : step s = .next s := by
  simp only [step, serveNext, hp]

theorem step_assertReset (hp : s.pending = .assertReset :: rest) :
    step s = .next { s with regs := Regs.reset, inReset := true, pending := rest } := by
  simp only [step, serveNext, hp, serveInput]

theorem step_releaseReset (hp : s.pending = .releaseReset :: rest) :
    step s = .next { s with inReset := false, pending := rest } := by
  simp only [step, serveNext, hp, serveInput]

/-- While reset is asserted an access has no step, admitted or not (93_implementation_defined.md I15). -/
theorem step_access_of_asserted (hr : s.inReset = true) (hp : s.pending = .access acc :: rest) :
    step s = .fault .accessInReset := by
  simp only [step, serveNext, hp, serveInput, hr, if_true]

/-- An access leaves the reset level alone: that is the platform's (70_reset_and_hazards.md R151). -/
theorem inReset_after_access (hp : s.pending = .access acc :: rest) (h : step s = .next t) :
    t.inReset = s.inReset := by
  rcases step_cases h with ⟨-, rfl⟩ | ⟨_, hq, -⟩ | ⟨_, hq, -⟩ | ⟨_, _, -, -, -, rfl⟩ | ⟨more, _, _, -, -, -, hw⟩
  · rfl
  · cases hp.symm.trans hq
  · cases hp.symm.trans hq
  · rfl
  · exact busWrite_inReset (s := s.afterWrite more) hw

/-! ### Safe inputs -/

theorem safeInputs_access {inReset : Bool} :
    safeInputs inReset (.access acc :: rest) = true ↔
      inReset = false ∧ acc.admitted = true ∧ safeInputs inReset rest = true := by
  simp [safeInputs, and_assoc]

/-- A step on safe inputs serves the oldest and leaves the rest safe: the edges of reset set the level `safeInputs` goes on from, and an access keeps it. -/
theorem step_of_safeInputs (hsafe : safeInputs s.inReset s.pending = true) :
    ∃ u, step s = .next u ∧ u.pending = s.pending.tail ∧ safeInputs u.inReset u.pending = true := by
  cases hp : s.pending with
  | nil => exact ⟨s, step_idle hp, hp, hsafe⟩
  | cons input rest =>
    rw [hp] at hsafe
    cases input with
    | assertReset => exact ⟨_, step_assertReset hp, rfl, hsafe⟩
    | releaseReset => exact ⟨_, step_releaseReset hp, rfl, hsafe⟩
    | access acc =>
      obtain ⟨hr, hacc, hrest⟩ := safeInputs_access.1 hsafe
      obtain ⟨u, hu, hpending⟩ := step_of_admitted hr hp hacc
      refine ⟨u, hu, hpending, ?_⟩
      rw [inReset_after_access hp hu, hpending]
      exact hrest

/-! ### The statements -/

/-- Settles O38, by induction on the number of steps: `step_of_safeInputs` serves one input, the hypothesis the rest. -/
theorem safeInputsNeverStop : Obligations.SafeInputsNeverStop := by
  unfold Obligations.SafeInputsNeverStop
  intro n
  induction n with
  | zero => exact fun s hsafe => ⟨s, rfl, rfl, hsafe⟩
  | succ n ih =>
    intro s hsafe
    obtain ⟨u, hu, hserved, husafe⟩ := step_of_safeInputs hsafe
    obtain ⟨t, hrun, hpending, htsafe⟩ := ih u husafe
    refine ⟨t, (core_run_succ n hu).trans hrun, ?_, htsafe⟩
    rw [hpending, hserved, List.drop_tail]

/-- Settles O1: `step_assertReset` and `exec_zero` both leave the reset registers, which STATUS shows as 0 by `statusWord_reset`. -/
theorem resetPutsEveryRegisterToZero : Obligations.ResetPutsEveryRegisterToZero := by
  unfold Obligations.ResetPutsEveryRegisterToZero
  refine ⟨fun s rest hp => ⟨_, step_assertReset hp, ?_⟩, fun s => ⟨_, exec_zero s, rfl⟩⟩
  exact ⟨rfl, rfl, rfl, rfl, rfl, rfl, rfl, rfl, rfl, (busRead_status Regs.reset).trans statusWord_reset, rfl⟩

/-- Settles O2: the step on each of the three inputs. -/
theorem resetHoldsCoreUntilReleased : Obligations.ResetHoldsCoreUntilReleased := by
  unfold Obligations.ResetHoldsCoreUntilReleased
  exact ⟨fun s acc rest hr hp => step_access_of_asserted hr hp, fun s rest hp => step_releaseReset hp,
    fun s rest hp => step_assertReset hp⟩

/-- The registers at reset meet their invariant: no count, no accumulator and no error code is left (10_state.md R27, R30 to R32). -/
theorem reset_wf : Regs.reset.wf :=
  ⟨Nat.zero_le _, fun _ => rfl, fun _ => rfl, fun herr => absurd rfl herr⟩

/-- Settles O3: the registers by `reset_wf`, and they hold their reset values. -/
theorem invariantHoldsAtReset : Obligations.InvariantHoldsAtReset := by
  unfold Obligations.InvariantHoldsAtReset
  exact ⟨reset_wf, fun _ => rfl⟩

end Sys2Proof.Machine
